-- ==== Sys2Proof/Word.lean ====
section
/-! DEFINITION. The words of the block: bytes, bus addresses, and memory as plain data
(spec/00_scope.md rules R6 and R10, spec/20_memory.md rule R62). -/

namespace Sys2Proof

/-- A byte: 8 bits, unsigned, bit 0 the least significant (rule R10). -/
abbrev Byte := BitVec 8

/-- A bus address: 16 bits (rules R6, R62). -/
abbrev Addr := BitVec 16

/-- A memory as a list of (address, byte) pairs: addresses strictly rise, and no entry holds what
its address reads as when unlisted, so that equal memories are equal lists. -/
abbrev Memory := List Host.Cell

/-- The addresses of a memory strictly rise. -/
def Memory.rising : Memory → Bool
  | [] => true
  | [_] => true
  | x :: y :: rest => decide (x.1 < y.1) && Memory.rising (y :: rest)

/-- The canonical form of a memory whose unlisted address `a` reads as `unlisted a`. -/
def Memory.wf (unlisted : Nat → Byte) (m : Memory) : Bool :=
  Memory.rising m && m.all fun e => e.2 != unlisted e.1

/-- Every listed address lies below `limit`. -/
def Memory.below (limit : Nat) (m : Memory) : Bool :=
  m.all fun e => decide (e.1 < limit)

end Sys2Proof
end

