-- ==== Sys2Proof/Config.lean ====
section
/-! DEFINITION. The parameters of the block (spec/00_scope.md rule R5): configuration, which no
operation changes. A `Config` is a choice of parameters that meets the constraints of rule R5; a
block whose parameters do not is not instantiated (spec/70_reset_and_hazards.md rule R262). The
free value of the model, `draw8` (rule R13), stands here too. -/

namespace Sys2Proof

/-- The two peripheral chips (rule R7): `sys` drives the keyboard and the serial line. -/
inductive Chip where
  | app
  | sys
  deriving DecidableEq, Repr

/-- The two ROM images (rule R44). -/
inductive RomId where
  | a
  | b
  deriving DecidableEq, Repr

/-- The six RAM sizes of rule R5; another limit is refused at instantiation (rule R262, U23). -/
inductive RamSize where
  | kib1
  | kib2
  | kib3
  | kib4
  | kib5
  | full
  deriving DecidableEq, Repr

/-- `RAM_LIMIT` (rule R5). -/
def RamSize.limit : RamSize → Nat
  | .kib1 => 0x0400
  | .kib2 => 0x0800
  | .kib3 => 0x0C00
  | .kib4 => 0x1000
  | .kib5 => 0x1400
  | .full => 0x10000

/-- A window: a contiguous range of bus addresses routed to one target (rule R14). -/
structure Window where
  base : Nat
  size : Nat
  deriving DecidableEq, Repr

/-- `base <= a < base + size` (spec/20_memory.md rule R68). -/
def Window.contains (w : Window) (a : Nat) : Bool :=
  decide (w.base ≤ a) && decide (a < w.base + w.size)

/-- No address lies in both windows (an empty window meets none). -/
def Window.disjoint (v w : Window) : Bool :=
  v.size == 0 || w.size == 0 || decide (v.base + v.size ≤ w.base) ||
    decide (w.base + w.size ≤ v.base)

/-- The window lies inside the 16-bit bus address space. DEDUCED from rule R5's sizes ("each ROM
window is 1024 bytes; each chip window is 64 bytes"): a window cut off at 0xFFFF would be smaller
(log 18). -/
def Window.fits (w : Window) : Bool :=
  decide (w.base + w.size ≤ 0x10000)

/-- Every window of the list is disjoint from every later one. -/
def Window.allDisjoint : List Window → Bool
  | [] => true
  | w :: rest => rest.all (Window.disjoint w) && Window.allDisjoint rest

/-- The parameters of rule R5, before their constraints are checked. An image and `RAM_INIT` list
only the bytes that are not 0x00, so that every image has exactly one representation (log 18). -/
structure Params where
  /-- `RAM_LIMIT` -/
  ramSize : RamSize
  /-- `RAM_INIT`, the bytes of RAM at reset -/
  ramInit : Memory
  /-- `ROM_A`, by index 0 to 1023 -/
  romA : Memory
  /-- `ROM_B`, by index 0 to 1023 -/
  romB : Memory
  /-- `ROM_A_BASE` -/
  romABase : Nat
  /-- `ROM_B_BASE` -/
  romBBase : Nat
  /-- `HIMIR_BASE` -/
  himirBase : Nat
  /-- `HIMIR_SIZE` -/
  himirSize : Nat
  /-- `HIMIR_ROM` -/
  himirRom : RomId
  /-- `HIMIR_OFF` -/
  himirOff : Nat
  /-- `APP_BASE` -/
  appBase : Nat
  /-- `SYS_BASE` -/
  sysBase : Nat
  /-- `FNWIN[APP]`, none unless configured -/
  fnApp : Option Window
  /-- `FNWIN[SYS]`, none unless configured -/
  fnSys : Option Window
  /-- `KEYPAT[0..6]` -/
  keypat : Vector Byte 7
  /-- `KEY_NONE` -/
  keyNone : Byte
  deriving DecidableEq, Repr

namespace Params

def romAWindow (p : Params) : Window := ⟨p.romABase, 1024⟩

def romBWindow (p : Params) : Window := ⟨p.romBBase, 1024⟩

def himirWindow (p : Params) : Window := ⟨p.himirBase, p.himirSize⟩

/-- The base of a chip's 64-byte register window (rule R5). -/
def chipBase (p : Params) : Chip → Nat
  | .app => p.appBase
  | .sys => p.sysBase

def chipWindow (p : Params) (c : Chip) : Window := ⟨p.chipBase c, 64⟩

/-- The optional narrower window of a chip (rule R5, spec/40_address_mux.md rule R134). -/
def fnWindow (p : Params) : Chip → Option Window
  | .app => p.fnApp
  | .sys => p.fnSys

/-- Every window of the address map but RAM. -/
def windows (p : Params) : List Window :=
  p.romAWindow :: p.romBWindow :: p.himirWindow :: p.chipWindow .app :: p.chipWindow .sys ::
    (p.fnApp.toList ++ p.fnSys.toList)

/-- The bytes with exactly one 0 bit (rule R5's constraint on `KEYPAT`). -/
def oneZeroBytes : List Byte := [0xFE, 0xFD, 0xFB, 0xF7, 0xEF, 0xDF, 0xBF, 0x7F]

/-- Each pattern has exactly one 0 bit and they are pairwise distinct (rule R5). -/
def keypatOk (p : Params) : Bool :=
  p.keypat.toList.all (oneZeroBytes.contains ·) && decide p.keypat.toList.Nodup

/-- The map constraints of rule R5: each window inside the address space, all of them pairwise
disjoint, `FNWIN` narrower than 64 bytes, and the mirror inside its image (D4). -/
def mapOk (p : Params) : Bool :=
  p.windows.all Window.fits && Window.allDisjoint p.windows &&
    p.fnApp.toList.all (fun w => decide (w.size < 64)) &&
    p.fnSys.toList.all (fun w => decide (w.size < 64)) &&
    decide (p.himirOff + p.himirSize ≤ 1024)

/-- The images hold 1024 bytes each and `RAM_INIT` covers [0, RAM_LIMIT), in canonical form. -/
def imagesOk (p : Params) : Bool :=
  Memory.wf (fun _ => 0) p.romA && Memory.below 1024 p.romA &&
    Memory.wf (fun _ => 0) p.romB && Memory.below 1024 p.romB &&
    Memory.wf (fun _ => 0) p.ramInit && Memory.below p.ramSize.limit p.ramInit

/-- The constraints of rule R5. -/
def valid (p : Params) : Bool :=
  p.mapOk && p.imagesOk && p.keypatOk && decide (20 < p.keyNone.toNat)

/-- The suggested defaults of rule R5. The bases, the mirror, `KEYPAT` and `KEY_NONE` are marked
general knowledge by the spec: PRESUMED, unsafe (log 2). `RAM_LIMIT` is the document's default.
The contents of the images and of RAM at reset are given nowhere: all bytes 0x00 here, DESIGN
CHOICE, unsafe (logs 3 and 4). -/
def suggested : Params where
  ramSize := .kib1
  ramInit := []
  romA := []
  romB := []
  romABase := 0x1800
  romBBase := 0x1C00
  himirBase := 0xFFFA
  himirSize := 6
  himirRom := .b
  himirOff := 0x3FA
  appBase := 0x1700
  sysBase := 0x1740
  fnApp := none
  fnSys := none
  keypat := #v[0xBF, 0xDF, 0xEF, 0xF7, 0xFB, 0xFD, 0xFE]
  keyNone := 0x15

end Params

/-- A choice of parameters that meets rule R5's constraints (rule R262). -/
structure Config extends Params where
  valid_eq : toParams.valid = true
  deriving DecidableEq, Repr

/-- The configuration of `State.reset` (logs 2, 3, 4). -/
def Config.suggested : Config where
  toParams := Params.suggested
  valid_eq := by decide

/-- The free value of the model: `draw8()` of rule R13, "a byte under no law", as the n-th byte
drawn in a run (log 8). Nothing constrains it. -/
opaque draw8 : Nat → Byte

end Sys2Proof
end

