-- ==== Sys2Proof/Syntax.lean ====
section
/-! DEFINITION. The operations of the block (spec/30_encoding.md rule R99), one constructor per row
of spec/opcode_table.json, and the descriptor words the agents present (rules R90 to R93). -/

namespace Sys2Proof

/-- The 34 operations. A `BUS` operation on a ROM, RAM or unmapped address carries that address
(rules R124 to R127 and R130 to R133); `RD_CHIP` and `WR_CHIP` carry the chip and the local offset
(rules R128, R129). The alias bits of a `REG` word select nothing (rule R96) and are not
operands, nor is the data field of a read. -/
inductive Instr where
  /-- `RD_ROM_A a` (R124) -/
  | rdRomA (a : Addr)
  /-- `RD_ROM_B a` (R125) -/
  | rdRomB (a : Addr)
  /-- `RD_HIMIR a` (R126) -/
  | rdHimir (a : Addr)
  /-- `WR_ROM a, v` (R127) -/
  | wrRom (a : Addr) (v : Byte)
  /-- `RD_CHIP c, o` (R128) -/
  | rdChip (c : Chip) (o : BitVec 6)
  /-- `WR_CHIP c, o, v` (R129) -/
  | wrChip (c : Chip) (o : BitVec 6) (v : Byte)
  /-- `RD_RAM a` (R130) -/
  | rdRam (a : Addr)
  /-- `WR_RAM a, v` (R131) -/
  | wrRam (a : Addr) (v : Byte)
  /-- `RD_NONE a` (R132) -/
  | rdNone (a : Addr)
  /-- `WR_NONE a, v` (R133) -/
  | wrNone (a : Addr) (v : Byte)
  /-- `RD_PAD APP` (R142) -/
  | rdPad
  /-- `RD_PAD_KEY`, on `SYS` (R192) -/
  | rdPadKey
  /-- `RD_PADD c` (R143) -/
  | rdPadd (c : Chip)
  /-- `RD_PBD APP` (R144) -/
  | rdPbd
  /-- `RD_PBD_SER`, on `SYS` (R207) -/
  | rdPbdSer
  /-- `RD_PBDD c` (R145) -/
  | rdPbdd (c : Chip)
  /-- `RD_T4 c` (R168) -/
  | rdT4 (c : Chip)
  /-- `RD_T5 c` (R169) -/
  | rdT5 (c : Chip)
  /-- `RD_TCNT c` (R166) -/
  | rdTcnt (c : Chip)
  /-- `RD_TSTAT c` (R167) -/
  | rdTstat (c : Chip)
  /-- `WR_PAD c, v` (R146) -/
  | wrPad (c : Chip) (v : Byte)
  /-- `WR_PADD c, v` (R147) -/
  | wrPadd (c : Chip) (v : Byte)
  /-- `WR_PBD APP, v` (R148) -/
  | wrPbd (v : Byte)
  /-- `WR_PBD_SER v`, on `SYS` (R208) -/
  | wrPbdSer (v : Byte)
  /-- `WR_PBDD c, v` (R149) -/
  | wrPbdd (c : Chip) (v : Byte)
  /-- `WR_TIM1 c, v` (R162) -/
  | wrTim1 (c : Chip) (v : Byte)
  /-- `WR_TIM8 c, v` (R163) -/
  | wrTim8 (c : Chip) (v : Byte)
  /-- `WR_TIM64 c, v` (R164) -/
  | wrTim64 (c : Chip) (v : Byte)
  /-- `WR_TIM1024 c, v` (R165) -/
  | wrTim1024 (c : Chip) (v : Byte)
  /-- `RESET` (R260) -/
  | reset
  /-- `TICK n`, any natural number (R170, R93) -/
  | tick (n : Nat)
  /-- `KEYSET k` (R230) -/
  | keyset (k : Byte)
  /-- `MODESET m` (R231) -/
  | modeset (m : Bool)
  /-- `TAPESET t` (R232) -/
  | tapeset (t : Bool)
  deriving DecidableEq, Repr

/-- A descriptor word together with its format; the format is that of the agent that presents it
(rule R90), not read from the word. -/
inductive Presented where
  /-- format `BUS`, 25 bits (R91) -/
  | bus (w : BitVec 25)
  /-- format `REG`, 16 bits (R92) -/
  | reg (w : BitVec 16)
  /-- format `EVT`, 35 bits (R93) -/
  | evt (w : BitVec 35)
  deriving DecidableEq, Repr

/-- Why a word spells no operation. -/
inductive DecodeError where
  /-- an `EVT` word whose event select is 5, 6 or 7 (R97) -/
  | eventSelect (e : BitVec 3)
  deriving DecidableEq, Repr

end Sys2Proof
end

