-- ==== Sys2Proof/Machine/Regions.lean ====
section
/-! DEFINITION. The address map (spec/20_memory.md rules R67 and R68): the region of a bus address
and the operands built from the address (spec/30_encoding.md rule R98). -/

namespace Sys2Proof

/-- The regions of rule R68. -/
inductive Region where
  | romA
  | romB
  | himir
  | chip (c : Chip)
  | fn (c : Chip)
  | ram
  | none
  deriving DecidableEq, Repr

/-- `InRomA(a)` (rule R68). -/
def Params.inRomA (p : Params) (a : Nat) : Bool := p.romAWindow.contains a

/-- `InRomB(a)` (rule R68). -/
def Params.inRomB (p : Params) (a : Nat) : Bool := p.romBWindow.contains a

/-- `InHiMir(a)` (rule R68). -/
def Params.inHimir (p : Params) (a : Nat) : Bool := p.himirWindow.contains a

/-- `InChip(c, a)` (rule R68). -/
def Params.inChip (p : Params) (c : Chip) (a : Nat) : Bool := (p.chipWindow c).contains a

/-- `InFn(c, a)` (rule R68): the window is configured and holds the address. -/
def Params.inFn (p : Params) (c : Chip) (a : Nat) : Bool :=
  (p.fnWindow c).any (Window.contains · a)

/-- `InRam(a)` (rule R68). -/
def Params.inRam (p : Params) (a : Nat) : Bool := decide (a < p.ramSize.limit)

/-- `Region(a)`: the first region, in the priority order of rule R67, that holds the address. -/
def Params.regionOf (p : Params) (a : Nat) : Region :=
  if p.inRomA a then .romA
  else if p.inRomB a then .romB
  else if p.inHimir a then .himir
  else if p.inChip .app a then .chip .app
  else if p.inChip .sys a then .chip .sys
  else if p.inFn .app a then .fn .app
  else if p.inFn .sys a then .fn .sys
  else if p.inRam a then .ram
  else .none

/-- The local offset `a - c_BASE` of an address in a chip's register window (rule R98). -/
def Params.chipOffset (p : Params) (c : Chip) (a : Nat) : BitVec 6 :=
  BitVec.ofNat 6 (a - p.chipBase c)

/-- The local offset `a - FNWIN[c].base` of an address in a chip's narrower window (rule R68). -/
def Params.fnOffset (p : Params) (c : Chip) (a : Nat) : BitVec 6 :=
  BitVec.ofNat 6 (a - ((p.fnWindow c).map Window.base).getD 0)

end Sys2Proof
end

