-- ==== Sys2Proof/WellFormed.lean ====
section
/-! DEFINITION. When an operation is well formed: the operands lie where its rule says they do. -/

namespace Sys2Proof

/-- A `BUS` operation's address lies in the region its rule names (spec/40_address_mux.md rules R124
to R133), and the operand of `TICK` is one its descriptor can carry (spec/30_encoding.md rule R93).
Every other operand is well formed by its type. -/
def Instr.wf (p : Params) : Instr → Bool
  | .rdRomA a => p.regionOf a.toNat == .romA
  | .rdRomB a => p.regionOf a.toNat == .romB
  | .rdHimir a => p.regionOf a.toNat == .himir
  | .wrRom a _ =>
    p.regionOf a.toNat == .romA || p.regionOf a.toNat == .romB || p.regionOf a.toNat == .himir
  | .rdRam a => p.regionOf a.toNat == .ram
  | .wrRam a _ => p.regionOf a.toNat == .ram
  | .rdNone a => p.regionOf a.toNat == .none
  | .wrNone a _ => p.regionOf a.toNat == .none
  | .tick n => decide (n < 2 ^ 32)
  | .rdChip _ _ | .wrChip _ _ _ => true
  | .rdPad | .rdPadKey | .rdPadd _ | .rdPbd | .rdPbdSer | .rdPbdd _ => true
  | .rdT4 _ | .rdT5 _ | .rdTcnt _ | .rdTstat _ => true
  | .wrPad _ _ | .wrPadd _ _ | .wrPbd _ | .wrPbdSer _ | .wrPbdd _ _ => true
  | .wrTim1 _ _ | .wrTim8 _ _ | .wrTim64 _ _ | .wrTim1024 _ _ => true
  | .reset | .keyset _ | .modeset _ | .tapeset _ => true

end Sys2Proof
end

