-- ==== Sys2Proof/Decode.lean ====
section
/-! DEFINITION. Descriptor words, their decoder and encoder (spec/30_encoding.md rules R90 to R100).
The bit layouts are the spec's own names for what selects an operation (its decision D2). -/

namespace Sys2Proof

/-- The `BUS` word `w a d`, bits 24, 23:8, 7:0 (rule R91). -/
def busWord (w : Bool) (a : Addr) (d : Byte) : BitVec 25 :=
  BitVec.ofBool w ++ a ++ d

/-- The chip bit of a `REG` word: 0 = `APP`, 1 = `SYS` (rule R92). -/
def chipBit : Chip → Bool
  | .app => false
  | .sys => true

/-- The chip a `REG` word's bit 15 names (rule R92). -/
def chipOfBit : Bool → Chip
  | false => .app
  | true => .sys

/-- The `REG` word `c w o d`, bits 15, 14, 13:8, 7:0, where the local offset `o` is the alias bits
`m` (13:11) above the register select `r` (10:8) (rule R92). -/
def regWord (c : Chip) (w : Bool) (o : BitVec 6) (d : Byte) : BitVec 16 :=
  BitVec.ofBool (chipBit c) ++ BitVec.ofBool w ++ o ++ d

/-- The `EVT` word `e p`, bits 34:32, 31:0 (rule R93). -/
def evtWord (e : BitVec 3) (p : BitVec 32) : BitVec 35 :=
  e ++ p

/-- Decode of a `BUS` word: the region of its address and `w` select the operation (rule R94). -/
def decodeBus (p : Params) (word : BitVec 25) : Instr :=
  let w := word.getLsbD 24
  let a := word.extractLsb' 8 16
  let d := word.extractLsb' 0 8
  match p.regionOf a.toNat, w with
  | .romA, false => .rdRomA a
  | .romB, false => .rdRomB a
  | .himir, false => .rdHimir a
  | .romA, true => .wrRom a d
  | .romB, true => .wrRom a d
  | .himir, true => .wrRom a d
  | .chip c, false => .rdChip c (p.chipOffset c a.toNat)
  | .chip c, true => .wrChip c (p.chipOffset c a.toNat) d
  | .fn c, false => .rdChip c (p.fnOffset c a.toNat)
  | .fn c, true => .wrChip c (p.fnOffset c a.toNat) d
  | .ram, false => .rdRam a
  | .ram, true => .wrRam a d
  | .none, false => .rdNone a
  | .none, true => .wrNone a d

/-- The register read that register select `r` names on chip `c` (rule R95). -/
def decodeRegRead (c : Chip) (r : Nat) : Instr :=
  match r, c with
  | 0, .app => .rdPad
  | 0, .sys => .rdPadKey
  | 1, c => .rdPadd c
  | 2, .app => .rdPbd
  | 2, .sys => .rdPbdSer
  | 3, c => .rdPbdd c
  | 4, c => .rdT4 c
  | 5, c => .rdT5 c
  | 6, c => .rdTcnt c
  | _, c => .rdTstat c

/-- The register write that register select `r` names on chip `c` (rule R95). -/
def decodeRegWrite (c : Chip) (r : Nat) (d : Byte) : Instr :=
  match r, c with
  | 0, c => .wrPad c d
  | 1, c => .wrPadd c d
  | 2, .app => .wrPbd d
  | 2, .sys => .wrPbdSer d
  | 3, c => .wrPbdd c d
  | 4, c => .wrTim1 c d
  | 5, c => .wrTim8 c d
  | 6, c => .wrTim64 c d
  | _, c => .wrTim1024 c d

/-- Decode of a `REG` word by `w`, `r` and, for three slots, `c` (rule R95); the alias bits 13:11
take no part (rule R96). -/
def decodeReg (word : BitVec 16) : Instr :=
  let c := chipOfBit (word.getLsbD 15)
  let r := (word.extractLsb' 8 3).toNat
  if word.getLsbD 14 then decodeRegWrite c r (word.extractLsb' 0 8)
  else decodeRegRead c r

/-- Decode of an `EVT` word (rules R93, R97): payload bits above the operand are ignored, and event
selects 5 to 7 spell no operation. -/
def decodeEvt (word : BitVec 35) : Except DecodeError Instr :=
  let e := word.extractLsb' 32 3
  let p := word.extractLsb' 0 32
  match e.toNat with
  | 0 => .ok .reset
  | 1 => .ok (.tick p.toNat)
  | 2 => .ok (.keyset (p.extractLsb' 0 8))
  | 3 => .ok (.modeset (p.getLsbD 0))
  | 4 => .ok (.tapeset (p.getLsbD 0))
  | _ => .error (.eventSelect e)

/-- The decoder: total on every word of every format. -/
def decode (p : Params) : Presented → Except DecodeError Instr
  | .bus w => .ok (decodeBus p w)
  | .reg w => .ok (decodeReg w)
  | .evt w => decodeEvt w

/-- The word of an operation, written from the same tables. Alias bits, ignored data fields and
unused payload bits are written as 0, and a chip is reached through its 64-byte register window. -/
def encode (p : Params) : Instr → Presented
  | .rdRomA a => .bus (busWord false a 0)
  | .rdRomB a => .bus (busWord false a 0)
  | .rdHimir a => .bus (busWord false a 0)
  | .wrRom a v => .bus (busWord true a v)
  | .rdChip c o => .bus (busWord false (BitVec.ofNat 16 (p.chipBase c + o.toNat)) 0)
  | .wrChip c o v => .bus (busWord true (BitVec.ofNat 16 (p.chipBase c + o.toNat)) v)
  | .rdRam a => .bus (busWord false a 0)
  | .wrRam a v => .bus (busWord true a v)
  | .rdNone a => .bus (busWord false a 0)
  | .wrNone a v => .bus (busWord true a v)
  | .rdPad => .reg (regWord .app false 0 0)
  | .rdPadKey => .reg (regWord .sys false 0 0)
  | .rdPadd c => .reg (regWord c false 1 0)
  | .rdPbd => .reg (regWord .app false 2 0)
  | .rdPbdSer => .reg (regWord .sys false 2 0)
  | .rdPbdd c => .reg (regWord c false 3 0)
  | .rdT4 c => .reg (regWord c false 4 0)
  | .rdT5 c => .reg (regWord c false 5 0)
  | .rdTcnt c => .reg (regWord c false 6 0)
  | .rdTstat c => .reg (regWord c false 7 0)
  | .wrPad c v => .reg (regWord c true 0 v)
  | .wrPadd c v => .reg (regWord c true 1 v)
  | .wrPbd v => .reg (regWord .app true 2 v)
  | .wrPbdSer v => .reg (regWord .sys true 2 v)
  | .wrPbdd c v => .reg (regWord c true 3 v)
  | .wrTim1 c v => .reg (regWord c true 4 v)
  | .wrTim8 c v => .reg (regWord c true 5 v)
  | .wrTim64 c v => .reg (regWord c true 6 v)
  | .wrTim1024 c v => .reg (regWord c true 7 v)
  | .reset => .evt (evtWord 0 0)
  | .tick n => .evt (evtWord 1 (BitVec.ofNat 32 n))
  | .keyset k => .evt (evtWord 2 (k.setWidth 32))
  | .modeset m => .evt (evtWord 3 ((BitVec.ofBool m).setWidth 32))
  | .tapeset t => .evt (evtWord 4 ((BitVec.ofBool t).setWidth 32))

/-- The word that `nbits` bits of the opcode table with value `w` stand for: a row of 16 bits is a
`REG` word, one of 25 (32 in whole bytes) a `BUS` word, one of 35 (40 in whole bytes) an `EVT`
word. The bits that pad a word to whole bytes are not part of it (log 11). -/
def presentedOfTable (nbits w : Nat) : Presented :=
  if nbits ≤ 16 then .reg (BitVec.ofNat 16 w)
  else if nbits ≤ 32 then .bus (BitVec.ofNat 25 w)
  else .evt (BitVec.ofNat 35 w)

/-- The operation the decoder reads from a word of the opcode table, under the address map of
`State.reset` (log 25). -/
def decodeTableWord (nbits w : Nat) : Option Instr :=
  match decode Config.suggested.toParams (presentedOfTable nbits w) with
  | .ok i => some i
  | .error _ => none

end Sys2Proof
end

