-- ==== Sys2Proof/Machine/State.lean ====
section
/-! DEFINITION. The state of the block (spec/10_state.md rule R20), the reasons a step can stop, and
the state right after reset (rule R47). -/

namespace Sys2Proof.Machine

/-- `T[c]`, the interval timer of one chip (rules R25 to R29). -/
structure Timer where
  /-- the recorded divisor, 0 before any timer write (R25) -/
  prescale : Nat
  /-- the start value a re-arm reloads (R26) -/
  start : Byte
  /-- the remaining count (R27) -/
  count : Byte
  /-- the sub-tick remainder, of no fixed width (R28) -/
  rem : Nat
  /-- the timeout latch (R29) -/
  timeout : Bool
  deriving DecidableEq, Repr

/-- The registers of one peripheral chip (rules R21 to R24) and its timer. -/
structure ChipRegs where
  /-- primary port data (R21) -/
  pad : Byte
  /-- primary port direction (R22) -/
  padd : Byte
  /-- secondary port data (R23) -/
  pbd : Byte
  /-- secondary port direction (R24) -/
  pbdd : Byte
  /-- the interval timer (R25 to R29) -/
  timer : Timer
  deriving DecidableEq, Repr

/-- `SER`, the serial shift register on `SYS` (rules R35 to R38). -/
structure Serial where
  /-- a frame is in progress (R35) -/
  active : Bool
  /-- data bits shifted in since the start write, 0 to 8 (R36) -/
  bitcnt : Nat
  /-- the byte accumulator (R37) -/
  acc : Byte
  /-- the bit-ready latch (R38) -/
  bitready : Bool
  deriving DecidableEq, Repr



/-- The state: the tuple of rule R20 (`app` to `txtape`), the parameters as a field that no
operation changes (`cfg`, log 1), and three fields of the model's own (`pending`, log 6; `reads`,
log 7; `draws`, log 8). -/
structure State where
  /-- the parameters of spec/00_scope.md rule R5: configuration, not state of the block (log 1) -/
  cfg : Config
  /-- the registers of `APP` -/
  app : ChipRegs
  /-- the registers of `SYS` -/
  sys : ChipRegs
  /-- the serial shift register -/
  ser : Serial
  /-- RAM (R40): an unlisted address reads as `RAM_INIT` gives -/
  ram : Memory
  /-- the pending key (R41) -/
  key : Byte
  /-- the serial console mode (R42) -/
  sermode : Bool
  /-- a paper-tape write session is open (R43) -/
  tapew : Bool
  /-- bytes emitted to the console, oldest first (R45) -/
  txcon : List Byte
  /-- bytes emitted to the tape, oldest first (R45) -/
  txtape : List Byte
  /-- MODEL'S OWN: the words the agents have still to present, next first (R9; log 6) -/
  pending : List Presented
  /-- MODEL'S OWN: the bytes reads have returned, oldest first (R15; log 7) -/
  reads : List Byte
  /-- MODEL'S OWN: how many free values have been drawn (R13; log 8) -/
  draws : Nat
  deriving DecidableEq, Repr

/-- Faults of the block: there are none. No operation raises anything, for every operand value
(spec/60_exceptions.md rules R240 and R241), so the type is empty, which is safe: the model claims
no stop (log 21). -/
inductive Fault where
  deriving DecidableEq, Repr

/-- Why the machine gives no next state. -/
inductive Refusal where
  /-- Raised by `exec` for an operation that has no meaning in the model; no arm raises it. Safe. -/
  | notModelled (mnemonic : String)
  /-- Raised by `step` when the word presented spells no operation
  (spec/30_encoding.md rule R97; log 10). Safe: "no agent presents it". -/
  | undecodable (why : DecodeError)
  deriving DecidableEq, Repr

/-- A timer after reset: stopped until one of its offsets is written (rules R25 to R29; log 5). -/
def Timer.reset : Timer where
  prescale := 0
  start := 0
  count := 0
  rem := 0
  timeout := false

/-- A chip after reset (rules R21 to R24; log 5). -/
def ChipRegs.reset : ChipRegs where
  pad := 0
  padd := 0
  pbd := 0
  pbdd := 0
  timer := Timer.reset

/-- The serial shift register after reset: Idle (rules R35 to R38; log 5). -/
def Serial.reset : Serial where
  active := false
  bitcnt := 0
  acc := 0
  bitready := false

/-- The block with parameters `cfg` right after power-on, before any operation (rule R47): every
address of RAM reads as `RAM_INIT` gives, since none is listed. -/
def State.resetWith (cfg : Config) : State where
  cfg := cfg
  app := ChipRegs.reset
  sys := ChipRegs.reset
  ser := Serial.reset
  ram := []
  key := cfg.keyNone
  sermode := false
  tapew := false
  txcon := []
  txtape := []
  pending := []
  reads := []
  draws := 0

/-- The machine right after reset, with the suggested parameters (logs 2, 3, 4). -/
def State.reset : State := State.resetWith Config.suggested

end Sys2Proof.Machine
end

