-- ==== Sys2Proof/Machine/Flags.lean ====
section
/-! DEFINITION. The one-bit latches of the block and the conditions that set and test them
(spec/10_state.md rule R46). -/

namespace Sys2Proof.Machine

/-- "when the remainder exceeds prescale": strictly greater (spec/42_timer.md rule R161). The spec's
own reading of the word (D15), kept in this one definition (log 13). -/
def exceeds (rem prescale : Nat) : Bool := decide (rem > prescale)

/-- Decrementing `count` by `whole` "would go to or below 0": the timeout latches (rule R161). -/
def latches (whole : Nat) (count : Byte) : Bool := decide (whole ≥ count.toNat)

/-- The timer takes no ticks: it was never armed, or its timeout is latched (rule R161). -/
def Timer.stopped (t : Timer) : Bool := t.prescale == 0 || t.timeout

/-- The status byte: bit 7 is the timeout latch, bits 6:0 are 0 (rule R167). -/
def statusByte (timeout : Bool) : Byte := if timeout then 0x80 else 0x00

/-- A write that arrives now is a qualifying write (spec/00_scope.md rule R14). -/
def Serial.qualifies (x : Serial) : Bool := x.active && x.bitready

end Sys2Proof.Machine
end

