-- ==== Sys2Proof/Machine/Operands.lean ====
section
/-! DEFINITION. Operand assembly: every derived operand, with the bits it is built from
(spec/30_encoding.md rule R98). -/

namespace Sys2Proof.Machine

/-- The register select `o % 8` of a local offset (rules R96, R98); the alias bits select nothing. -/
def regSelect (o : BitVec 6) : Nat := o.toNat % 8

/-- The index `a - base` of a byte in a ROM image of 1024 bytes (rule R98). -/
def romIndex (base : Nat) (a : Addr) : Nat := (a.toNat - base) % 1024

/-- The index `HIMIR_OFF + (a - HIMIR_BASE)` of a mirrored byte (rule R98). -/
def himirIndex (p : Params) (a : Addr) : Nat := (p.himirOff + (a.toNat - p.himirBase)) % 1024

/-- The scan row: bits 4:1 of the secondary data register of `SYS` (rule R98,
spec/43_keyboard_scan.md rule R191). -/
def scanRow (pbd : Byte) : Nat := ((pbd >>> 1) &&& 0xF).toNat

/-- The serial data bit: bit 0 of the byte written (rule R98; the same bit for start and data is
D16, log 15). -/
def serialBit (v : Byte) : Bool := v.getLsbD 0

end Sys2Proof.Machine
end

