-- ==== Sys2Proof/Machine/Ops.lean ====
section
/-! DEFINITION. The named operations over the state that the meanings share: registers, memory, the
timer procedures, the serial shift register, the answer of a read, power-on. The block takes no
exception and returns from none (spec/60_exceptions.md rules R240 and R245), so there is no
operation for either. -/

namespace Sys2Proof

/-- The byte a memory holds at `a`; an unlisted address reads as `unlisted`. -/
def Memory.readOr (unlisted : Byte) : Memory → Nat → Byte
  | [], _ => unlisted
  | e :: rest, a => if e.1 = a then e.2 else Memory.readOr unlisted rest a

/-- The memory with `v` stored at `a`, in canonical form: storing what the address reads as when
unlisted removes its entry. -/
def Memory.write (unlisted : Byte) (m : Memory) (a : Nat) (v : Byte) : Memory :=
  match m with
  | [] => if v = unlisted then [] else [(a, v)]
  | e :: rest =>
    if a < e.1 then (if v = unlisted then e :: rest else (a, v) :: e :: rest)
    else if a = e.1 then (if v = unlisted then rest else (a, v) :: rest)
    else e :: Memory.write unlisted rest a v

/-- `RAM_INIT(a)` (spec/00_scope.md rule R5): what an address of RAM reads as when it is not listed. -/
def Params.ramInitByte (p : Params) (a : Nat) : Byte := Memory.readOr 0 p.ramInit a

/-- A byte of `ROM_A` or `ROM_B` (spec/10_state.md rule R44). -/
def Params.romByte (p : Params) (r : RomId) (i : Nat) : Byte :=
  match r with
  | .a => Memory.readOr 0 p.romA i
  | .b => Memory.readOr 0 p.romB i

end Sys2Proof

namespace Sys2Proof.Machine

/-- The registers of chip `c`. -/
def State.chip (s : State) (c : Chip) : ChipRegs :=
  match c with
  | .app => s.app
  | .sys => s.sys

/-- Chip `c` with the registers `x`; the other chip is untouched
(spec/41_port_registers.md rule R152). -/
def State.setChip (s : State) (c : Chip) (x : ChipRegs) : State :=
  { s with
    app := match c with | .app => x | .sys => s.app
    sys := match c with | .app => s.sys | .sys => x }

def State.setPad (s : State) (c : Chip) (v : Byte) : State :=
  s.setChip c { s.chip c with pad := v }

def State.setPadd (s : State) (c : Chip) (v : Byte) : State :=
  s.setChip c { s.chip c with padd := v }

def State.setPbd (s : State) (c : Chip) (v : Byte) : State :=
  s.setChip c { s.chip c with pbd := v }

def State.setPbdd (s : State) (c : Chip) (v : Byte) : State :=
  s.setChip c { s.chip c with pbdd := v }

def State.setTimer (s : State) (c : Chip) (t : Timer) : State :=
  s.setChip c { s.chip c with timer := t }

def State.setSer (s : State) (x : Serial) : State := { s with ser := x }

/-- `result <- v`: the byte a read returns (spec/00_scope.md rules R12, R15). -/
def State.answer (s : State) (v : Byte) : State := { s with reads := s.reads ++ [v] }

/-- `result <- draw8()`: a byte under no law (spec/00_scope.md rule R13). -/
def State.answerDraw (s : State) : State :=
  { s with reads := s.reads ++ [draw8 s.draws], draws := s.draws + 1 }

/-- `RAM[a]` (spec/10_state.md rule R40). -/
def State.ramByte (s : State) (a : Nat) : Byte :=
  Memory.readOr (s.cfg.ramInitByte a) s.ram a

/-- `RAM[a] <- v`. -/
def State.setRamByte (s : State) (a : Nat) (v : Byte) : State :=
  { s with ram := Memory.write (s.cfg.ramInitByte a) s.ram a v }

/-- `TimerReset(c, p, s)` (spec/42_timer.md rule R160). -/
def timerReset (prescale : Nat) (start : Byte) : Timer where
  prescale := prescale
  start := start
  count := start
  rem := 0
  timeout := false

/-- `TimerUpdate(c, n)` (spec/42_timer.md rule R161). -/
def timerUpdate (n : Nat) (t : Timer) : Timer :=
  if t.stopped then t
  else if exceeds (t.rem + n) t.prescale then
    if latches ((t.rem + n) / t.prescale) t.count then
      { t with rem := (t.rem + n) % t.prescale, count := 0, timeout := true }
    else
      { t with
        rem := (t.rem + n) % t.prescale
        count := BitVec.ofNat 8 (t.count.toNat - (t.rem + n) / t.prescale) }
  else { t with rem := t.rem + n }

/-- `Scan(row, key, mode)` (spec/43_keyboard_scan.md rule R190). -/
def scan (keypat : Vector Byte 7) (row : Nat) (key : Byte) (mode : Bool) : Byte :=
  let k := key.toNat
  if row = 0 then
    if h : k ≤ 6 then keypat[k] else 0xFF
  else if row = 1 then
    if h : 7 ≤ k ∧ k ≤ 13 then keypat[k - 7] else 0xFF
  else if row = 2 then
    if h : 14 ≤ k ∧ k ≤ 20 then keypat[k - 14] else 0xFF
  else if row = 3 then
    if mode then 0x00 else 0xFF
  else 0x80

/-- `Emit(b)` (spec/44_serial_shift.md rule R210): the tape drops a zero byte, the console does
not. -/
def State.emit (s : State) (b : Byte) : State :=
  if s.tapew then
    if b = 0 then s else { s with txtape := s.txtape ++ [b] }
  else { s with txcon := s.txcon ++ [b] }

/-- The shift register after the start write of a frame (rules R206, R208). -/
def Serial.started : Serial where
  active := true
  bitcnt := 0
  acc := 0
  bitready := false

/-- The shift register after consuming the bit `b`: it enters at bit 7 and the others move right
(rules R208, R212). -/
def Serial.consumed (x : Serial) (b : Bool) : Serial where
  active := x.active
  bitcnt := x.bitcnt + 1
  acc := (x.acc >>> 1) ||| ((BitVec.ofBool b).setWidth 8 <<< 7)
  bitready := false

/-- What a write with data bit `b` does to the shift register: exactly one of start, emit, consume,
nothing (rules R208, R211). -/
def State.serialWrite (s : State) (b : Bool) : State :=
  if s.ser.active then
    if s.ser.qualifies then
      if s.ser.bitcnt = 8 then
        (s.emit s.ser.acc).setSer { s.ser with active := false }
      else s.setSer (s.ser.consumed b)
    else s
  else if b then s
  else s.setSer Serial.started

/-- Every element of the state tuple at its power-on value (spec/70_reset_and_hazards.md rule R260).
The parameters are not touched; nor are the model's own fields, which are no state of the block
(logs 6, 7, 8, 24). -/
def State.powerOn (s : State) : State :=
  { s with
    app := ⟨0, 0, 0, 0, timerReset 0 0⟩
    sys := ⟨0, 0, 0, 0, timerReset 0 0⟩
    ser := ⟨false, 0, 0, false⟩
    ram := []
    key := s.cfg.keyNone
    sermode := false
    tapew := false
    txcon := []
    txtape := [] }

end Sys2Proof.Machine
end

