-- ==== Sys2Proof/Machine/Events.lean ====
section
/-! DEFINITION. The operations of the agent `HOST`: power-on (spec/70_reset_and_hazards.md rule
R260) and the three inputs (spec/45_host_inputs.md). -/

namespace Sys2Proof.Machine

/-- `RESET` (rule R260). -/
def execReset (s : State) : Host.Outcome State Fault Refusal :=
  .next s.powerOn

/-- `KEYSET k` (rule R230). -/
def execKeyset (k : Byte) (s : State) : Host.Outcome State Fault Refusal :=
  .next { s with key := k }

/-- `MODESET m` (rule R231). -/
def execModeset (m : Bool) (s : State) : Host.Outcome State Fault Refusal :=
  .next { s with sermode := m }

/-- `TAPESET t` (rule R232). -/
def execTapeset (t : Bool) (s : State) : Host.Outcome State Fault Refusal :=
  .next { s with tapew := t }

end Sys2Proof.Machine
end

