-- ==== Sys2Proof/Machine/IntervalTimer.lean ====
section
/-! DEFINITION. The interval timer: offsets 4 to 7 of a chip, and the tick
(spec/42_timer.md). -/

namespace Sys2Proof.Machine

/-- `WR_TIM1 c, v` (rule R162). -/
def execWrTim1 (c : Chip) (v : Byte) (s : State) : Host.Outcome State Fault Refusal :=
  .next (s.setTimer c (timerReset 1 v))

/-- `WR_TIM8 c, v` (rule R163). -/
def execWrTim8 (c : Chip) (v : Byte) (s : State) : Host.Outcome State Fault Refusal :=
  .next (s.setTimer c (timerReset 8 v))

/-- `WR_TIM64 c, v` (rule R164). -/
def execWrTim64 (c : Chip) (v : Byte) (s : State) : Host.Outcome State Fault Refusal :=
  .next (s.setTimer c (timerReset 64 v))

/-- `WR_TIM1024 c, v` (rule R165). -/
def execWrTim1024 (c : Chip) (v : Byte) (s : State) : Host.Outcome State Fault Refusal :=
  .next (s.setTimer c (timerReset 1024 v))

/-- `RD_TCNT c` (rule R166): a read that finds the latch set reports 0 and re-arms the timer. -/
def execRdTcnt (c : Chip) (s : State) : Host.Outcome State Fault Refusal :=
  let t := (s.chip c).timer
  if t.timeout then .next ((s.answer 0).setTimer c (timerReset t.prescale t.start))
  else .next (s.answer t.count)

/-- `RD_TSTAT c` (rule R167). -/
def execRdTstat (c : Chip) (s : State) : Host.Outcome State Fault Refusal :=
  .next (s.answer (statusByte (s.chip c).timer.timeout))

/-- `RD_T4 c` (rule R168): a byte under no law, on either chip, and no state change. -/
def execRdT4 (_ : Chip) (s : State) : Host.Outcome State Fault Refusal :=
  .next s.answerDraw

/-- `RD_T5 c` (rule R169): a byte under no law, on either chip, and no state change. -/
def execRdT5 (_ : Chip) (s : State) : Host.Outcome State Fault Refusal :=
  .next s.answerDraw

/-- `TICK n` (rule R170): both timers receive the same `n`. -/
def execTick (n : Nat) (s : State) : Host.Outcome State Fault Refusal :=
  let s1 := s.setTimer .app (timerUpdate n (s.chip .app).timer)
  .next (s1.setTimer .sys (timerUpdate n (s1.chip .sys).timer))

end Sys2Proof.Machine
end

