-- ==== Sys2Proof/Machine/Keyboard.lean ====
section
/-! DEFINITION. The keyboard scan encoder (spec/43_keyboard_scan.md). -/

namespace Sys2Proof.Machine

/-- `RD_PAD_KEY` (rule R192): the scan of the row that `PBD[SYS]` selects. That this read returns it
is D8 (log 14). -/
def execRdPadKey (s : State) : Host.Outcome State Fault Refusal :=
  .next (s.answer (scan s.cfg.keypat (scanRow (s.chip .sys).pbd) s.key s.sermode))

end Sys2Proof.Machine
end

