-- ==== Sys2Proof/Machine/Ports.lean ====
section
/-! DEFINITION. The port registers of a chip (spec/41_port_registers.md). -/

namespace Sys2Proof.Machine

/-- `RD_PAD APP` (rule R142). -/
def execRdPad (s : State) : Host.Outcome State Fault Refusal :=
  .next (s.answer (s.chip .app).pad)

/-- `RD_PADD c` (rule R143). -/
def execRdPadd (c : Chip) (s : State) : Host.Outcome State Fault Refusal :=
  .next (s.answer (s.chip c).padd)

/-- `RD_PBD APP` (rule R144). -/
def execRdPbd (s : State) : Host.Outcome State Fault Refusal :=
  .next (s.answer (s.chip .app).pbd)

/-- `RD_PBDD c` (rule R145). -/
def execRdPbdd (c : Chip) (s : State) : Host.Outcome State Fault Refusal :=
  .next (s.answer (s.chip c).pbdd)

/-- `WR_PAD c, v` (rule R146). -/
def execWrPad (c : Chip) (v : Byte) (s : State) : Host.Outcome State Fault Refusal :=
  .next (s.setPad c v)

/-- `WR_PADD c, v` (rule R147). -/
def execWrPadd (c : Chip) (v : Byte) (s : State) : Host.Outcome State Fault Refusal :=
  .next (s.setPadd c v)

/-- `WR_PBD APP, v` (rule R148): no further effect, since `APP` has no shift register. -/
def execWrPbd (v : Byte) (s : State) : Host.Outcome State Fault Refusal :=
  .next (s.setPbd .app v)

/-- `WR_PBDD c, v` (rule R149). -/
def execWrPbdd (c : Chip) (v : Byte) (s : State) : Host.Outcome State Fault Refusal :=
  .next (s.setPbdd c v)

end Sys2Proof.Machine
end

