-- ==== Sys2Proof/Machine/SerialLine.lean ====
section
/-! DEFINITION. The bit-serial shift register on `SYS` (spec/44_serial_shift.md). -/

namespace Sys2Proof.Machine

/-- `RD_PBD_SER` (rule R207): returns the stored register and sets the bit-ready latch. -/
def execRdPbdSer (s : State) : Host.Outcome State Fault Refusal :=
  .next ((s.answer (s.chip .sys).pbd).setSer { s.ser with bitready := true })

/-- `WR_PBD_SER v` (rule R208): stores the byte, then steps the shift register on its bit 0. -/
def execWrPbdSer (v : Byte) (s : State) : Host.Outcome State Fault Refusal :=
  .next ((s.setPbd .sys v).serialWrite (serialBit v))

end Sys2Proof.Machine
end

