-- ==== Sys2Proof/Machine/Mux.lean ====
section
/-! DEFINITION. The address multiplexer: the bus-level operations (spec/40_address_mux.md) and the
register decoder they hand over to (spec/41_port_registers.md rules R140 and R141). -/

namespace Sys2Proof.Machine

/-- `RD_ROM_A a` (rule R124). -/
def execRdRomA (a : Addr) (s : State) : Host.Outcome State Fault Refusal :=
  .next (s.answer (s.cfg.romByte .a (romIndex s.cfg.romABase a)))

/-- `RD_ROM_B a` (rule R125). -/
def execRdRomB (a : Addr) (s : State) : Host.Outcome State Fault Refusal :=
  .next (s.answer (s.cfg.romByte .b (romIndex s.cfg.romBBase a)))

/-- `RD_HIMIR a` (rule R126). -/
def execRdHimir (a : Addr) (s : State) : Host.Outcome State Fault Refusal :=
  .next (s.answer (s.cfg.romByte s.cfg.himirRom (himirIndex s.cfg.toParams a)))

/-- `WR_ROM a, v` (rule R127): "Writes to ROM windows are silently ignored." -/
def execWrRom (_ : Addr) (_ : Byte) (s : State) : Host.Outcome State Fault Refusal :=
  .next s

/-- `RD_RAM a` (rule R130). -/
def execRdRam (a : Addr) (s : State) : Host.Outcome State Fault Refusal :=
  .next (s.answer (s.ramByte a.toNat))

/-- `WR_RAM a, v` (rule R131). -/
def execWrRam (a : Addr) (v : Byte) (s : State) : Host.Outcome State Fault Refusal :=
  .next (s.setRamByte a.toNat v)

/-- `RD_NONE a` (rule R132): an unmapped address reads as 0. -/
def execRdNone (_ : Addr) (s : State) : Host.Outcome State Fault Refusal :=
  .next (s.answer 0)

/-- `WR_NONE a, v` (rule R133): a write to an unmapped address is dropped. -/
def execWrNone (_ : Addr) (_ : Byte) (s : State) : Host.Outcome State Fault Refusal :=
  .next s

/-- `ChipRead(c, o)` (spec/41_port_registers.md rule R140), by register select `r = o % 8`. -/
def chipRead (c : Chip) (r : Nat) (s : State) : Host.Outcome State Fault Refusal :=
  match r, c with
  | 0, .app => execRdPad s
  | 0, .sys => execRdPadKey s
  | 1, c => execRdPadd c s
  | 2, .app => execRdPbd s
  | 2, .sys => execRdPbdSer s
  | 3, c => execRdPbdd c s
  | 4, c => execRdT4 c s
  | 5, c => execRdT5 c s
  | 6, c => execRdTcnt c s
  | _, c => execRdTstat c s

/-- `ChipWrite(c, o, v)` (spec/41_port_registers.md rule R141), by register select `r = o % 8`. -/
def chipWrite (c : Chip) (r : Nat) (v : Byte) (s : State) : Host.Outcome State Fault Refusal :=
  match r, c with
  | 0, c => execWrPad c v s
  | 1, c => execWrPadd c v s
  | 2, .app => execWrPbd v s
  | 2, .sys => execWrPbdSer v s
  | 3, c => execWrPbdd c v s
  | 4, c => execWrTim1 c v s
  | 5, c => execWrTim8 c v s
  | 6, c => execWrTim64 c v s
  | _, c => execWrTim1024 c v s

/-- `RD_CHIP c, o` (rule R128). -/
def execRdChip (c : Chip) (o : BitVec 6) (s : State) : Host.Outcome State Fault Refusal :=
  chipRead c (regSelect o) s

/-- `WR_CHIP c, o, v` (rule R129). -/
def execWrChip (c : Chip) (o : BitVec 6) (v : Byte) (s : State) :
    Host.Outcome State Fault Refusal :=
  chipWrite c (regSelect o) v s

end Sys2Proof.Machine
end

