-- ==== Sys2Proof/Machine/Dispatch.lean ====
section
/-! DEFINITION. Dispatch: one arm per operation of the map (spec/30_encoding.md rule R99). -/

namespace Sys2Proof.Machine

def exec (i : Instr) (s : State) : Host.Outcome State Fault Refusal :=
  match i with
  | .rdRomA a => Sys2Proof.Machine.execRdRomA a s
  | .rdRomB a => Sys2Proof.Machine.execRdRomB a s
  | .rdHimir a => Sys2Proof.Machine.execRdHimir a s
  | .wrRom a v => Sys2Proof.Machine.execWrRom a v s
  | .rdChip c o => Sys2Proof.Machine.execRdChip c o s
  | .wrChip c o v => Sys2Proof.Machine.execWrChip c o v s
  | .rdRam a => Sys2Proof.Machine.execRdRam a s
  | .wrRam a v => Sys2Proof.Machine.execWrRam a v s
  | .rdNone a => Sys2Proof.Machine.execRdNone a s
  | .wrNone a v => Sys2Proof.Machine.execWrNone a v s
  | .rdPad => Sys2Proof.Machine.execRdPad s
  | .rdPadKey => Sys2Proof.Machine.execRdPadKey s
  | .rdPadd c => Sys2Proof.Machine.execRdPadd c s
  | .rdPbd => Sys2Proof.Machine.execRdPbd s
  | .rdPbdSer => Sys2Proof.Machine.execRdPbdSer s
  | .rdPbdd c => Sys2Proof.Machine.execRdPbdd c s
  | .rdT4 c => Sys2Proof.Machine.execRdT4 c s
  | .rdT5 c => Sys2Proof.Machine.execRdT5 c s
  | .rdTcnt c => Sys2Proof.Machine.execRdTcnt c s
  | .rdTstat c => Sys2Proof.Machine.execRdTstat c s
  | .wrPad c v => Sys2Proof.Machine.execWrPad c v s
  | .wrPadd c v => Sys2Proof.Machine.execWrPadd c v s
  | .wrPbd v => Sys2Proof.Machine.execWrPbd v s
  | .wrPbdSer v => Sys2Proof.Machine.execWrPbdSer v s
  | .wrPbdd c v => Sys2Proof.Machine.execWrPbdd c v s
  | .wrTim1 c v => Sys2Proof.Machine.execWrTim1 c v s
  | .wrTim8 c v => Sys2Proof.Machine.execWrTim8 c v s
  | .wrTim64 c v => Sys2Proof.Machine.execWrTim64 c v s
  | .wrTim1024 c v => Sys2Proof.Machine.execWrTim1024 c v s
  | .reset => Sys2Proof.Machine.execReset s
  | .tick n => Sys2Proof.Machine.execTick n s
  | .keyset k => Sys2Proof.Machine.execKeyset k s
  | .modeset m => Sys2Proof.Machine.execModeset m s
  | .tapeset t => Sys2Proof.Machine.execTapeset t s

end Sys2Proof.Machine
end

