-- ==== Sys2Proof/Machine/Step.lean ====
section
/-! DEFINITION. One step: the next word of the trace is taken, decoded and run as one atomic
operation (spec/00_scope.md rules R8 and R9). -/

namespace Sys2Proof.Machine

/-- One step. The block "never acts unprompted" (rule R8): where no word is presented, nothing
changes (log 6). A word that spells no operation is refused (spec/30_encoding.md rule R97,
log 10). -/
def step (s : State) : Host.Outcome State Fault Refusal :=
  match s.pending with
  | [] => .next s
  | word :: rest =>
    match decode s.cfg.toParams word with
    | .ok i => exec i { s with pending := rest }
    | .error why => .refused (.undecodable why)

/-- `s` with the word that `nbits` bits of the opcode table with value `w` stand for presented
before everything still pending. -/
def State.withFetchWord (s : State) (nbits w : Nat) : State :=
  { s with pending := presentedOfTable nbits w :: s.pending }

end Sys2Proof.Machine
end

