-- ==== Sys2Proof/Safety.lean ====
section
/-! DEFINITION. The terms the claims use: the invariant of the block, runs of operations, and what
the outside cannot see. -/

namespace Sys2Proof.Machine

/-- The invariants of a timer (spec/10_state.md rule R30): (a) the divisor is one of the five; (b)
a latched timeout holds count 0, with the remainder below the divisor (e); (d) a timer never armed
is all zero; (e) while running, the remainder is at most the divisor; and, from (c), the count is
never above the start value. -/
abbrev Timer.Inv (t : Timer) : Prop :=
  t.prescale ∈ [0, 1, 8, 64, 1024] ∧
  (t.timeout = true → t.count = 0 ∧ t.rem < t.prescale) ∧
  (t.prescale = 0 → t.rem = 0 ∧ t.count = 0 ∧ t.start = 0 ∧ t.timeout = false) ∧
  (t.timeout = false → t.rem ≤ t.prescale) ∧
  t.count.toNat ≤ t.start.toNat

/-- The invariants of the shift register: at most 8 bits (spec/10_state.md rule R39), and during a
frame the places of the accumulator that no bit has reached yet are 0 (DEDUCED from
spec/44_serial_shift.md rules R208 and R212). -/
abbrev Serial.Inv (x : Serial) : Prop :=
  x.bitcnt ≤ 8 ∧ (x.active = true → x.acc.toNat % 2 ^ (8 - x.bitcnt) = 0)

/-- RAM is in canonical form and lists only addresses whose region is RAM
(spec/10_state.md rule R40). -/
abbrev State.RamInv (s : State) : Prop :=
  Memory.wf s.cfg.ramInitByte s.ram = true ∧ ∀ e ∈ s.ram, s.cfg.regionOf e.1 = .ram

/-- The invariant of the block. The tape log never holds a zero byte
(spec/70_reset_and_hazards.md rule R273). -/
abbrev State.Inv (s : State) : Prop :=
  s.app.timer.Inv ∧ s.sys.timer.Inv ∧ s.ser.Inv ∧ s.RamInv ∧ (0 : Byte) ∉ s.txtape

/-- Operations run one after another, stopping at the first that gives no next state. -/
def runOps : List Instr → State → Host.Outcome State Fault Refusal
  | [], s => .next s
  | i :: rest, s =>
    match exec i s with
    | .next t => runOps rest t
    | .fault r => .fault r
    | .refused r => .refused r

/-- The states agree but for what is left over in an idle shift register
(spec/10_state.md rule R39). -/
abbrev State.SameButIdleSerial (s t : State) : Prop :=
  s.ser.active = t.ser.active ∧ (s.ser.active = true → s.ser = t.ser) ∧
  { s with ser := t.ser } = t

/-- The states agree but for the stored primary data register of `SYS`, which no operation returns
(spec/10_state.md rule R21). -/
abbrev State.SameButSysPad (s t : State) : Prop :=
  { s with sys := { s.sys with pad := t.sys.pad } } = t

end Sys2Proof.Machine

namespace Sys2Proof

/-- The chip whose registers an operation addresses. -/
def Instr.chipAddressed : Instr → Option Chip
  | .rdChip c _ | .wrChip c _ _ => some c
  | .rdPad | .rdPbd | .wrPbd _ => some .app
  | .rdPadKey | .rdPbdSer | .wrPbdSer _ => some .sys
  | .rdPadd c | .rdPbdd c | .rdT4 c | .rdT5 c | .rdTcnt c | .rdTstat c => some c
  | .wrPad c _ | .wrPadd c _ | .wrPbdd c _ => some c
  | .wrTim1 c _ | .wrTim8 c _ | .wrTim64 c _ | .wrTim1024 c _ => some c
  | .rdRomA _ | .rdRomB _ | .rdHimir _ | .wrRom _ _ => none
  | .rdRam _ | .wrRam _ _ | .rdNone _ | .wrNone _ _ => none
  | .reset | .tick _ | .keyset _ | .modeset _ | .tapeset _ => none

/-- The operation is a read: it returns a byte (spec/20_memory.md rule R60). -/
def Instr.isRead : Instr → Bool
  | .rdRomA _ | .rdRomB _ | .rdHimir _ | .rdChip _ _ | .rdRam _ | .rdNone _ => true
  | .rdPad | .rdPadKey | .rdPadd _ | .rdPbd | .rdPbdSer | .rdPbdd _ => true
  | .rdT4 _ | .rdT5 _ | .rdTcnt _ | .rdTstat _ => true
  | .wrRom _ _ | .wrChip _ _ _ | .wrRam _ _ | .wrNone _ _ => false
  | .wrPad _ _ | .wrPadd _ _ | .wrPbd _ | .wrPbdSer _ | .wrPbdd _ _ => false
  | .wrTim1 _ _ | .wrTim8 _ _ | .wrTim64 _ _ | .wrTim1024 _ _ => false
  | .reset | .tick _ | .keyset _ | .modeset _ | .tapeset _ => false

/-- The operation writes the secondary data register of `SYS`, by its register operation or through
the bus at any alias (spec/30_encoding.md rule R96). -/
def Instr.writesSerialLine : Instr → Bool
  | .wrPbdSer _ => true
  | .wrChip .sys o _ => Machine.regSelect o == 2
  | _ => false

/-- The operation reads the secondary data register of `SYS`. -/
def Instr.readsSerialLine : Instr → Bool
  | .rdPbdSer => true
  | .rdChip .sys o => Machine.regSelect o == 2
  | _ => false

/-- The operation reads the timer count of chip `c`, at any alias. -/
def Instr.readsCountOf (c : Chip) : Instr → Bool
  | .rdTcnt d => d == c
  | .rdChip d o => d == c && Machine.regSelect o == 6
  | _ => false

end Sys2Proof
end

