-- ==== Sys2Proof/Certificates/Slice0/Obligations.lean ====
section
/-! DEFINITION. The statements for the provers. The descriptor layouts every `decode` clause
rests on are the spec's own (its decision D2, log 11), and that the alias bits `m` select nothing is
its decision D6 (log 12); `R<n>` and `D<n>` name rules and decisions of spec/. -/

open Sys2Proof Sys2Proof.Machine

/-! Decoding and stepping. -/

/-- Words written out in spec/95_test_vectors.md decode to the operations they stand for; the `BUS`
words are under the suggested map (log 2). Layouts: D2. -/
def Obligations.SampleWordsDecode : Prop :=
  decode Config.suggested.toParams (.reg 0x405A) = .ok (.wrPad .app 0x5A) ∧
  decode Config.suggested.toParams (.reg 0x42C3) = .ok (.wrPbd 0xC3) ∧
  decode Config.suggested.toParams (.reg 0xC97F) = .ok (.wrPadd .sys 0x7F) ∧
  decode Config.suggested.toParams (.reg 0x8300) = .ok (.rdPbdd .sys) ∧
  decode Config.suggested.toParams (.reg 0x8000) = .ok .rdPadKey ∧
  decode Config.suggested.toParams (.reg 0xC201) = .ok (.wrPbdSer 0x01) ∧
  decode Config.suggested.toParams (.reg 0x8200) = .ok .rdPbdSer ∧
  decode Config.suggested.toParams (.reg 0x450A) = .ok (.wrTim8 .app 0x0A) ∧
  decode Config.suggested.toParams (.reg 0x0E00) = .ok (.rdTcnt .app) ∧
  decode Config.suggested.toParams (.evt 0x100000050) = .ok (.tick 80) ∧
  decode Config.suggested.toParams (.evt 0x20000000A) = .ok (.keyset 0x0A) ∧
  decode Config.suggested.toParams (.evt 0x400000001) = .ok (.tapeset true) ∧
  decode Config.suggested.toParams (.bus 0x10010AB) = .ok (.wrRam 0x0010 0xAB) ∧
  decode Config.suggested.toParams (.bus 0x1800055) = .ok (.wrNone 0x8000 0x55) ∧
  decode Config.suggested.toParams (.bus 0x11C00FF) = .ok (.wrRom 0x1C00 0xFF) ∧
  decode Config.suggested.toParams (.bus 0x0FFFC00) = .ok (.rdHimir 0xFFFC) ∧
  decode Config.suggested.toParams (.bus 0x117497F) = .ok (.wrChip .sys 9 0x7F)

/-- Decoding the word of any well-formed operation gives the operation back, for every choice of
parameters. Layouts: D2. -/
def Obligations.DecodeOfEncodeIsTheOperation : Prop :=
  ∀ (c : Config) (i : Instr), i.wf c.toParams = true →
    decode c.toParams (encode c.toParams i) = .ok i

/-- What the decoder gives is well formed: a `BUS` operation's address lies in the region its rule
names. Layouts: D2. -/
def Obligations.DecodedOperationIsWellFormed : Prop :=
  ∀ (c : Config) (word : Presented) (i : Instr),
    decode c.toParams word = .ok i → i.wf c.toParams = true

/-- Offset bits 5:3 take no part in the decode of a `REG` word, nor does the data field of a read.
The modulo-8 reading is the spec's decision D6 (log 12). -/
def Obligations.AliasBitsSelectNothing : Prop :=
  ∀ (c : Config) (chip : Chip) (w : Bool) (o o' : BitVec 6) (d d' : Byte),
    o.toNat % 8 = o'.toNat % 8 →
    decode c.toParams (.reg (regWord chip w o d)) = decode c.toParams (.reg (regWord chip w o' d)) ∧
    decode c.toParams (.reg (regWord chip false o d)) =
      decode c.toParams (.reg (regWord chip false o' d'))

/-- Every `BUS` word and every `REG` word runs, and an `EVT` word runs unless its event select is
5, 6 or 7, which `step` refuses by name (D2, log 10). -/
def Obligations.EveryWordRunsButInvalidEvents : Prop :=
  ∀ (s : State) (rest : List Presented),
    (∀ w, s.pending = .bus w :: rest → ∃ t, step s = .next t) ∧
    (∀ w, s.pending = .reg w :: rest → ∃ t, step s = .next t) ∧
    (∀ w, s.pending = .evt w :: rest → (w.extractLsb' 32 3).toNat < 5 → ∃ t, step s = .next t) ∧
    (∀ w, s.pending = .evt w :: rest → 5 ≤ (w.extractLsb' 32 3).toNat →
      step s = .refused (.undecodable (.eventSelect (w.extractLsb' 32 3))))

/-- A step takes the next word presented and runs the operation it decodes to, on the state without
that word; with no word presented nothing changes. That the trace stands in the state and that an
idle step changes nothing are the model's choices (log 6). -/
def Obligations.StepRunsTheNextPresentedWord : Prop :=
  ∀ s : State,
    (∀ word rest i, s.pending = word :: rest → decode s.cfg.toParams word = .ok i →
      step s = exec i { s with pending := rest }) ∧
    (s.pending = [] → step s = .next s)

/-! The address multiplexer. -/

/-- Each address belongs to the region whose predicate holds of it: the windows are tested before
RAM, and RAM before the unmapped rest (R67, R122). -/
def Obligations.WindowsTakePrecedenceOverRam : Prop :=
  ∀ (c : Config) (a : Nat),
    (c.inRomA a = true → c.regionOf a = .romA) ∧
    (c.inRomB a = true → c.regionOf a = .romB) ∧
    (c.inHimir a = true → c.regionOf a = .himir) ∧
    (∀ chip, c.inChip chip a = true → c.regionOf a = .chip chip) ∧
    (∀ chip, c.inFn chip a = true → c.regionOf a = .fn chip) ∧
    (c.windows.all (fun w => !w.contains a) = true →
      c.regionOf a = if a < c.ramSize.limit then .ram else .none)

/-- With `RAM_LIMIT` = 0x10000 no bus address is unmapped, and every address outside the windows is
RAM (R135). -/
def Obligations.FullRamLeavesNothingUnmapped : Prop :=
  ∀ (c : Config) (a : Addr), c.ramSize = .full →
    c.regionOf a.toNat ≠ .none ∧
    (c.windows.all (fun w => !w.contains a.toNat) = true → c.regionOf a.toNat = .ram)

/-- `RD_ROM_A` and `RD_ROM_B` return the byte of their image at the address less the window's base,
and change nothing (R124, R125). -/
def Obligations.RomReadsReturnTheImageByte : Prop :=
  ∀ (s : State) (a : Addr) (d : Byte),
    (s.cfg.inRomA a.toNat = true →
      decode s.cfg.toParams (.bus (busWord false a d)) = .ok (.rdRomA a) ∧
      exec (.rdRomA a) s =
        .next { s with reads := s.reads ++ [s.cfg.romByte .a (a.toNat - s.cfg.romABase)] }) ∧
    (s.cfg.inRomB a.toNat = true →
      decode s.cfg.toParams (.bus (busWord false a d)) = .ok (.rdRomB a) ∧
      exec (.rdRomB a) s =
        .next { s with reads := s.reads ++ [s.cfg.romByte .b (a.toNat - s.cfg.romBBase)] })

/-- `RD_HIMIR` returns the byte of the mirrored image, the same byte as the read of the primary
window's address (R126). Which bytes are mirrored is a parameter (D4); the statement holds for
every choice. -/
def Obligations.HighMirrorReadsThePrimaryByte : Prop :=
  ∀ (s : State) (a : Addr) (d : Byte), s.cfg.inHimir a.toNat = true →
    decode s.cfg.toParams (.bus (busWord false a d)) = .ok (.rdHimir a) ∧
    exec (.rdHimir a) s =
      .next { s with
        reads := s.reads ++
          [s.cfg.romByte s.cfg.himirRom (s.cfg.himirOff + (a.toNat - s.cfg.himirBase))] } ∧
    (s.cfg.himirRom = .a → ∀ b : Addr,
      b.toNat = s.cfg.romABase + s.cfg.himirOff + (a.toNat - s.cfg.himirBase) →
      exec (.rdRomA b) s = exec (.rdHimir a) s) ∧
    (s.cfg.himirRom = .b → ∀ b : Addr,
      b.toNat = s.cfg.romBBase + s.cfg.himirOff + (a.toNat - s.cfg.himirBase) →
      exec (.rdRomB b) s = exec (.rdHimir a) s)

/-- A write into any of the three ROM regions changes nothing (R127). -/
def Obligations.RomWritesAreIgnored : Prop :=
  ∀ (s : State) (a : Addr) (v : Byte),
    (s.cfg.inRomA a.toNat = true ∨ s.cfg.inRomB a.toNat = true ∨ s.cfg.inHimir a.toNat = true) →
    decode s.cfg.toParams (.bus (busWord true a v)) = .ok (.wrRom a v) ∧
    exec (.wrRom a v) s = .next s

/-- A bus access in a window of chip `c` decodes to `RD_CHIP` or `WR_CHIP` at the address less the
window's base; the narrower windows' offset is the spec's decision D5 (log 17). -/
def Obligations.ChipWindowsReachTheirChip : Prop :=
  ∀ (s : State) (c : Chip) (a : Addr) (v : Byte),
    (s.cfg.inChip c a.toNat = true → ∃ o : BitVec 6,
      s.cfg.chipBase c + o.toNat = a.toNat ∧
      decode s.cfg.toParams (.bus (busWord false a v)) = .ok (.rdChip c o) ∧
      decode s.cfg.toParams (.bus (busWord true a v)) = .ok (.wrChip c o v)) ∧
    (∀ w, s.cfg.fnWindow c = some w → w.contains a.toNat = true → ∃ o : BitVec 6,
      w.base + o.toNat = a.toNat ∧
      decode s.cfg.toParams (.bus (busWord false a v)) = .ok (.rdChip c o) ∧
      decode s.cfg.toParams (.bus (busWord true a v)) = .ok (.wrChip c o v))

/-- `RD_CHIP c, o` and `WR_CHIP c, o, v` answer a next state, and it is the one the register
operation gives that the `REG` word of `c`, `o` and `v` decodes to (R94, R128, R129, R140, R141).
The modulo-8 decode it goes through is D6. -/
def Obligations.ChipAccessIsTheRegisterOperation : Prop :=
  ∀ (s : State) (c : Chip) (o : BitVec 6) (v : Byte),
    (∃ i t, decode s.cfg.toParams (.reg (regWord c false o v)) = .ok i ∧
      exec (.rdChip c o) s = .next t ∧ exec i s = .next t) ∧
    (∃ i t, decode s.cfg.toParams (.reg (regWord c true o v)) = .ok i ∧
      exec (.wrChip c o v) s = .next t ∧ exec i s = .next t)

/-- `RD_RAM` returns the stored byte; `WR_RAM` stores one byte, every other address reads as
before, and nothing else changes; a byte not written since the last `RESET`, through whatever other
operations, reads as `RAM_INIT`, as it does right after reset; every RAM address is below
`RAM_LIMIT` (R130, R131). The premise on the form of `ram` is part of the invariant. -/
def Obligations.RamReadsAndWrites : Prop :=
  ∀ (s : State) (a : Addr) (v d : Byte), s.cfg.regionOf a.toNat = .ram →
    Memory.wf s.cfg.ramInitByte s.ram = true →
    a.toNat < s.cfg.ramSize.limit ∧
    decode s.cfg.toParams (.bus (busWord false a d)) = .ok (.rdRam a) ∧
    exec (.rdRam a) s = .next { s with reads := s.reads ++ [s.ramByte a.toNat] } ∧
    decode s.cfg.toParams (.bus (busWord true a v)) = .ok (.wrRam a v) ∧
    (∃ t, exec (.wrRam a v) s = .next t ∧ t = { s with ram := t.ram } ∧
      ∀ b, t.ramByte b = if b = a.toNat then v else s.ramByte b) ∧
    (State.resetWith s.cfg).ramByte a.toNat = s.cfg.ramInitByte a.toNat ∧
    (∀ ops : List Instr, (∀ i ∈ ops, i ≠ .reset ∧ ∀ w, i ≠ .wrRam a w) →
      ∃ t, runOps (.reset :: ops) s = .next t ∧ t.ramByte a.toNat = s.cfg.ramInitByte a.toNat)

/-- An address no region claims reads as 0x00 and a write to it changes nothing (R132, R133). -/
def Obligations.UnmappedAccessesReadZeroAndDropWrites : Prop :=
  ∀ (s : State) (a : Addr) (v d : Byte), s.cfg.regionOf a.toNat = .none →
    decode s.cfg.toParams (.bus (busWord false a d)) = .ok (.rdNone a) ∧
    exec (.rdNone a) s = .next { s with reads := s.reads ++ [0x00] } ∧
    decode s.cfg.toParams (.bus (busWord true a v)) = .ok (.wrNone a v) ∧
    exec (.wrNone a v) s = .next s

/-! The port registers. -/

/-- The four port reads return the stored byte and change nothing, at every alias and whatever the
data field (R143, R145, and the effects R142 and R144 give `RD_PAD` and `RD_PBD`; the aliases are
D6, log 12). -/
def Obligations.PortReadsReturnTheStoredByte : Prop :=
  ∀ (s : State) (m : BitVec 3) (d : Byte),
    (decode s.cfg.toParams (.reg (regWord .app false (m ++ 0#3) d)) = .ok .rdPad ∧
      exec .rdPad s = .next { s with reads := s.reads ++ [s.app.pad] }) ∧
    (∀ c, decode s.cfg.toParams (.reg (regWord c false (m ++ 1#3) d)) = .ok (.rdPadd c) ∧
      exec (.rdPadd c) s = .next { s with reads := s.reads ++ [(s.chip c).padd] }) ∧
    (decode s.cfg.toParams (.reg (regWord .app false (m ++ 2#3) d)) = .ok .rdPbd ∧
      exec .rdPbd s = .next { s with reads := s.reads ++ [s.app.pbd] }) ∧
    (∀ c, decode s.cfg.toParams (.reg (regWord c false (m ++ 3#3) d)) = .ok (.rdPbdd c) ∧
      exec (.rdPbdd c) s = .next { s with reads := s.reads ++ [(s.chip c).pbdd] })

/-- `WR_PAD`, `WR_PADD` and `WR_PBDD` store the byte in their register of the chip addressed and
change nothing else; the byte stored in `PAD[SYS]` is returned by no read of its offset (R146,
R147, R149). That last clause rests on D8 (log 14), and the aliases on D6 (log 12). -/
def Obligations.PortWritesStoreTheByte : Prop :=
  ∀ (s : State) (m : BitVec 3) (v : Byte),
    (∀ c, decode s.cfg.toParams (.reg (regWord c true (m ++ 0#3) v)) = .ok (.wrPad c v) ∧
      decode s.cfg.toParams (.reg (regWord c true (m ++ 1#3) v)) = .ok (.wrPadd c v) ∧
      decode s.cfg.toParams (.reg (regWord c true (m ++ 3#3) v)) = .ok (.wrPbdd c v)) ∧
    exec (.wrPad .app v) s = .next { s with app := { s.app with pad := v } } ∧
    exec (.wrPad .sys v) s = .next { s with sys := { s.sys with pad := v } } ∧
    exec (.wrPadd .app v) s = .next { s with app := { s.app with padd := v } } ∧
    exec (.wrPadd .sys v) s = .next { s with sys := { s.sys with padd := v } } ∧
    exec (.wrPbdd .app v) s = .next { s with app := { s.app with pbdd := v } } ∧
    exec (.wrPbdd .sys v) s = .next { s with sys := { s.sys with pbdd := v } } ∧
    (∃ b, exec .rdPadKey s = .next { s with reads := s.reads ++ [b] } ∧
      exec .rdPadKey { s with sys := { s.sys with pad := v } } =
        .next { s with sys := { s.sys with pad := v }, reads := s.reads ++ [b] })

/-- A write of the secondary data register of `APP` stores the byte and has no further effect; that
`APP` has no side effect is the spec's decision D7 (log 23). -/
def Obligations.AppSecondaryWriteOnlyStores : Prop :=
  ∀ (s : State) (m : BitVec 3) (v : Byte),
    decode s.cfg.toParams (.reg (regWord .app true (m ++ 2#3) v)) = .ok (.wrPbd v) ∧
    exec (.wrPbd v) s = .next { s with app := { s.app with pbd := v } }

/-- The flip-flop property (R150): a port register written through the bus at any alias and read
back at any alias returns the byte, but for offset 0 of `SYS`. It rests on D6 and D9. -/
def Obligations.PortRegistersAreFlipFlops : Prop :=
  ∀ (s : State) (c : Chip) (o o' : BitVec 6) (v : Byte),
    o.toNat % 8 < 4 → o'.toNat % 8 = o.toNat % 8 → (c = .sys → o.toNat % 8 ≠ 0) →
    ∃ t u, exec (.wrChip c o v) s = .next t ∧ exec (.rdChip c o') t = .next u ∧
      u.reads = s.reads ++ [v]

/-! The interval timer. -/

/-- A write of offset 4, 5, 6 or 7 arms the chip's timer with divisor 1, 8, 64 or 1024 and the byte
written as start value and count, clears the remainder and the latch, and changes nothing else
(R160, R162 to R165; the aliases are D6, log 12). -/
def Obligations.TimerWritesArmTheTimer : Prop :=
  ∀ (s : State) (m : BitVec 3) (v : Byte),
    (∀ c, decode s.cfg.toParams (.reg (regWord c true (m ++ 4#3) v)) = .ok (.wrTim1 c v) ∧
      decode s.cfg.toParams (.reg (regWord c true (m ++ 5#3) v)) = .ok (.wrTim8 c v) ∧
      decode s.cfg.toParams (.reg (regWord c true (m ++ 6#3) v)) = .ok (.wrTim64 c v) ∧
      decode s.cfg.toParams (.reg (regWord c true (m ++ 7#3) v)) = .ok (.wrTim1024 c v)) ∧
    exec (.wrTim1 .app v) s = .next { s with app := { s.app with timer := ⟨1, v, v, 0, false⟩ } } ∧
    exec (.wrTim1 .sys v) s = .next { s with sys := { s.sys with timer := ⟨1, v, v, 0, false⟩ } } ∧
    exec (.wrTim8 .app v) s = .next { s with app := { s.app with timer := ⟨8, v, v, 0, false⟩ } } ∧
    exec (.wrTim8 .sys v) s = .next { s with sys := { s.sys with timer := ⟨8, v, v, 0, false⟩ } } ∧
    exec (.wrTim64 .app v) s =
      .next { s with app := { s.app with timer := ⟨64, v, v, 0, false⟩ } } ∧
    exec (.wrTim64 .sys v) s =
      .next { s with sys := { s.sys with timer := ⟨64, v, v, 0, false⟩ } } ∧
    exec (.wrTim1024 .app v) s =
      .next { s with app := { s.app with timer := ⟨1024, v, v, 0, false⟩ } } ∧
    exec (.wrTim1024 .sys v) s =
      .next { s with sys := { s.sys with timer := ⟨1024, v, v, 0, false⟩ } }

/-- A read of the count returns the remaining count; if the latch is set it returns 0x00 and re-arms
the timer with its prescale and start value (R166). Where a latched timer holds count 0, as every
reachable one does, the byte is the count before the read in both cases. The aliases are D6
(log 12). -/
def Obligations.CountReadReArmsATimedOutTimer : Prop :=
  ∀ (s : State) (m : BitVec 3) (d : Byte),
    (∀ c, decode s.cfg.toParams (.reg (regWord c false (m ++ 6#3) d)) = .ok (.rdTcnt c)) ∧
    (∀ c, (s.chip c).timer.timeout = false →
      exec (.rdTcnt c) s = .next { s with reads := s.reads ++ [(s.chip c).timer.count] }) ∧
    (s.app.timer.timeout = true → exec (.rdTcnt .app) s =
      .next { s with
        reads := s.reads ++ [0x00]
        app := { s.app with
          timer := ⟨s.app.timer.prescale, s.app.timer.start, s.app.timer.start, 0, false⟩ } }) ∧
    (s.sys.timer.timeout = true → exec (.rdTcnt .sys) s =
      .next { s with
        reads := s.reads ++ [0x00]
        sys := { s.sys with
          timer := ⟨s.sys.timer.prescale, s.sys.timer.start, s.sys.timer.start, 0, false⟩ } }) ∧
    (∀ c, ((s.chip c).timer.timeout = true → (s.chip c).timer.count = 0) →
      ∃ t, exec (.rdTcnt c) s = .next t ∧ t.reads = s.reads ++ [(s.chip c).timer.count])

/-- A read of the status returns 0x80 if the timeout is latched, else 0x00, and changes nothing
(R167; the aliases are D6, log 12). -/
def Obligations.StatusReadShowsTheTimeoutLatch : Prop :=
  ∀ (s : State) (m : BitVec 3) (d : Byte) (c : Chip),
    decode s.cfg.toParams (.reg (regWord c false (m ++ 7#3) d)) = .ok (.rdTstat c) ∧
    exec (.rdTstat c) s =
      .next { s with reads := s.reads ++ [if (s.chip c).timer.timeout then 0x80 else 0x00] }

/-- Reads of offsets 4 and 5 return some byte and change no state of the block: the spec's decision
D10. The byte is a free value (log 8); `draws` is the model's own counter of free values. -/
def Obligations.ReadsOfOffsetsFourAndFiveChangeNothing : Prop :=
  ∀ (s : State) (m : BitVec 3) (d : Byte) (c : Chip),
    decode s.cfg.toParams (.reg (regWord c false (m ++ 4#3) d)) = .ok (.rdT4 c) ∧
    decode s.cfg.toParams (.reg (regWord c false (m ++ 5#3) d)) = .ok (.rdT5 c) ∧
    (∃ b, exec (.rdT4 c) s = .next { s with reads := s.reads ++ [b], draws := s.draws + 1 }) ∧
    (∃ b, exec (.rdT5 c) s = .next { s with reads := s.reads ++ [b], draws := s.draws + 1 })

/-- `TICK n` gives `n` ticks to both timers and changes nothing else (R170), each timer following
R161: a stopped timer ignores them; otherwise the remainder grows by `n`, and when it exceeds the
prescale the count falls by the whole ticks, clamped at 0 with the timeout latched. "Exceeds" is
strict by the spec's decision D15 (log 13); the divisor 0 falls under the first clause. -/
def Obligations.TickFeedsBothTimers : Prop :=
  ∀ (s : State) (n : Nat), ∃ t, exec (.tick n) s = .next t ∧
    t = { s with
      app := { s.app with timer := t.app.timer }
      sys := { s.sys with timer := t.sys.timer } } ∧
    ∀ c : Chip, ∀ x, x = (s.chip c).timer → ∀ y, y = (t.chip c).timer →
      (x.prescale = 0 ∨ x.timeout = true → y = x) ∧
      (0 < x.prescale → x.timeout = false → x.rem + n ≤ x.prescale →
        y = { x with rem := x.rem + n }) ∧
      (0 < x.prescale → x.timeout = false → x.prescale < x.rem + n →
        x.count.toNat ≤ (x.rem + n) / x.prescale →
        y = { x with rem := (x.rem + n) % x.prescale, count := 0, timeout := true }) ∧
      (0 < x.prescale → x.timeout = false → x.prescale < x.rem + n →
        (x.rem + n) / x.prescale < x.count.toNat →
        y.prescale = x.prescale ∧ y.start = x.start ∧ y.timeout = false ∧
        y.rem = (x.rem + n) % x.prescale ∧
        y.count.toNat = x.count.toNat - (x.rem + n) / x.prescale)

/-- Every tick word carries its count: the payload is the operand of `TICK` (R93, layout D2). -/
def Obligations.TickWordCarriesItsCount : Prop :=
  ∀ (c : Config) (p : BitVec 32), decode c.toParams (.evt (evtWord 1 p)) = .ok (.tick p.toNat)

/-- `TICK 0` changes nothing in a state whose timers meet the timer invariants (R170, R30 (e)). -/
def Obligations.TickZeroChangesNothing : Prop :=
  ∀ s : State, s.app.timer.Inv → s.sys.timer.Inv → exec (.tick 0) s = .next s

/-- The conservation law (R172): after arming with divisor `p` and start value `v`, any ticks `ns`
with the latch still clear leave `total = p * (start - count) + rem`, with the remainder at most the
divisor. It rests on D15. -/
def Obligations.TicksAreConserved : Prop :=
  ∀ (s : State) (c : Chip) (p : Nat) (v : Byte) (ns : List Nat),
    p ∈ [1, 8, 64, 1024] → (s.chip c).timer = ⟨p, v, v, 0, false⟩ →
    ∃ t, runOps (ns.map Instr.tick) s = .next t ∧
      ((t.chip c).timer.timeout = false →
        (t.chip c).timer.count.toNat ≤ v.toNat ∧ (t.chip c).timer.rem ≤ p ∧
        ns.sum = p * (v.toNat - (t.chip c).timer.count.toNat) + (t.chip c).timer.rem)

/-- When the timeout latches, by the total of the ticks since arming (R173). For a start value of at
least 1: never below `v * p`, always from `v * p + 1`, and at `v * p` exactly if and only if the
remainder is 0 there, which never happens for a start value of 1. For a start value of 0: exactly
from `p + 1`. Fed in a single tick `n`: exactly when `n` exceeds `p` and `n / p` is at least the
start value. It rests on D15. -/
def Obligations.TimeoutThresholds : Prop :=
  ∀ (s : State) (c : Chip) (p : Nat) (v : Byte) (ns : List Nat),
    p ∈ [1, 8, 64, 1024] → (s.chip c).timer = ⟨p, v, v, 0, false⟩ →
    ∃ t, runOps (ns.map Instr.tick) s = .next t ∧
      (1 ≤ v.toNat → ns.sum < v.toNat * p → (t.chip c).timer.timeout = false) ∧
      (1 ≤ v.toNat → v.toNat * p + 1 ≤ ns.sum → (t.chip c).timer.timeout = true) ∧
      (1 ≤ v.toNat → ns.sum = v.toNat * p →
        ((t.chip c).timer.timeout = true ↔ (t.chip c).timer.rem = 0)) ∧
      (v.toNat = 1 → ns.sum = p → (t.chip c).timer.timeout = false) ∧
      (v.toNat = 0 → ((t.chip c).timer.timeout = true ↔ p + 1 ≤ ns.sum)) ∧
      (∀ n, ns = [n] → ((t.chip c).timer.timeout = true ↔ p < n ∧ v.toNat ≤ n / p))

/-- Under unit ticks and a divisor above 1 the latch sets at tick `v * p + 1` for a start value of at
least 1 and at tick `p + 1` for a start value of 0 (R173 (b)), and with divisor 1 at tick
`2 * max 1 (ceil (v / 2))` (R174). It rests on D15. -/
def Obligations.UnitTicksLatchAtTheStatedTick : Prop :=
  ∀ (s : State) (c : Chip) (p : Nat) (v : Byte) (k : Nat),
    p ∈ [1, 8, 64, 1024] → (s.chip c).timer = ⟨p, v, v, 0, false⟩ →
    ∃ t, runOps (List.replicate k (Instr.tick 1)) s = .next t ∧
      (1 < p → 1 ≤ v.toNat → ((t.chip c).timer.timeout = true ↔ v.toNat * p + 1 ≤ k)) ∧
      (1 < p → v.toNat = 0 → ((t.chip c).timer.timeout = true ↔ p + 1 ≤ k)) ∧
      (p = 1 → ((t.chip c).timer.timeout = true ↔ 2 * max 1 ((v.toNat + 1) / 2) ≤ k))

/-! The keyboard. -/

/-- The scan function (R190): rows 0, 1 and 2 answer the pattern of a key of their seven, and 0xFF
for every other value; row 3 answers the mode; every other row 0x80. -/
def Obligations.ScanAnswersTheRowsPattern : Prop :=
  ∀ (keypat : Vector Byte 7) (key : Byte) (mode : Bool),
    (∀ i : Fin 7, key.toNat = i.val → scan keypat 0 key mode = keypat[i]) ∧
    (6 < key.toNat → scan keypat 0 key mode = 0xFF) ∧
    (∀ i : Fin 7, key.toNat = 7 + i.val → scan keypat 1 key mode = keypat[i]) ∧
    (key.toNat < 7 ∨ 13 < key.toNat → scan keypat 1 key mode = 0xFF) ∧
    (∀ i : Fin 7, key.toNat = 14 + i.val → scan keypat 2 key mode = keypat[i]) ∧
    (key.toNat < 14 ∨ 20 < key.toNat → scan keypat 2 key mode = 0xFF) ∧
    scan keypat 3 key mode = (if mode then 0x00 else 0xFF) ∧
    (∀ row, 4 ≤ row → scan keypat row key mode = 0x80)

/-- A read of offset 0 of `SYS` returns the scan of the row in bits 4:1 of the secondary data
register, for the pending key and mode as they stand, and changes nothing (R191, R192). That this
read returns it is D8 (log 14), and that the mode is `SERMODE` D21 (log 23). -/
def Obligations.SysPrimaryReadReturnsTheScan : Prop :=
  ∀ (s : State) (m : BitVec 3) (d : Byte),
    decode s.cfg.toParams (.reg (regWord .sys false (m ++ 0#3) d)) = .ok .rdPadKey ∧
    exec .rdPadKey s = .next { s with
      reads := s.reads ++
        [scan s.cfg.keypat (s.sys.pbd.extractLsb' 1 4).toNat s.key s.sermode] }

/-- A key of the matrix answers on exactly one of rows 0, 1 and 2, row `k / 7`; the row and the
pattern together determine the key (R193, R194). -/
def Obligations.RowAndPatternDetermineTheKey : Prop :=
  ∀ (c : Config) (key key' : Byte) (mode : Bool) (row : Nat), key.toNat ≤ 20 → row < 3 →
    (scan c.keypat row key mode ≠ 0xFF ↔ row = key.toNat / 7) ∧
    (scan c.keypat row key mode ≠ 0xFF → scan c.keypat row key' mode = scan c.keypat row key mode →
      key' = key)

/-! The serial shift register. -/

/-- A read of the secondary data register of `SYS` returns the stored byte and sets the bit-ready
latch, Idle or Active, and changes nothing else (R207). The byte returned is D9 (log 14). -/
def Obligations.SysSecondaryReadSetsBitReady : Prop :=
  ∀ (s : State) (m : BitVec 3) (d : Byte),
    decode s.cfg.toParams (.reg (regWord .sys false (m ++ 2#3) d)) = .ok .rdPbdSer ∧
    exec .rdPbdSer s = .next { s with
      reads := s.reads ++ [s.sys.pbd]
      ser := { s.ser with bitready := true } }

/-- The writes of the secondary data register of `SYS` that emit nothing (R206, R208): the byte is
always stored; an idle register starts a frame on a 0 and does nothing on a 1; an active one
ignores a write that no read preceded, and otherwise takes bit 0 in at bit 7. The cases the
document does not list are D16, D17 and D18 (log 15). -/
def Obligations.SerialWriteStartsOrTakesABit : Prop :=
  ∀ (s : State) (m : BitVec 3) (v : Byte),
    decode s.cfg.toParams (.reg (regWord .sys true (m ++ 2#3) v)) = .ok (.wrPbdSer v) ∧
    (s.ser.active = false → v.getLsbD 0 = false → exec (.wrPbdSer v) s =
      .next { s with sys := { s.sys with pbd := v }, ser := ⟨true, 0, 0x00, false⟩ }) ∧
    (s.ser.active = false → v.getLsbD 0 = true → exec (.wrPbdSer v) s =
      .next { s with sys := { s.sys with pbd := v } }) ∧
    (s.ser.active = true → s.ser.bitready = false → exec (.wrPbdSer v) s =
      .next { s with sys := { s.sys with pbd := v } }) ∧
    (s.ser.active = true → s.ser.bitready = true → s.ser.bitcnt ≠ 8 → exec (.wrPbdSer v) s =
      .next { s with
        sys := { s.sys with pbd := v }
        ser := ⟨true, s.ser.bitcnt + 1,
          (s.ser.acc >>> 1) ||| (if v.getLsbD 0 then 0x80 else 0x00), false⟩ })

/-- The qualifying write after eight bits emits the accumulated byte and goes Idle, its own bit
discarded (R206, R208): to the tape if a write session is open and the byte is not 0, to neither
log if it is 0 and a session is open, else to the console (R210). That emitting needs the latch
and drops the bit is D18 (log 15). -/
def Obligations.NinthQualifyingWriteEmits : Prop :=
  ∀ (s : State) (v : Byte),
    s.ser.active = true → s.ser.bitready = true → s.ser.bitcnt = 8 →
    (s.tapew = false → exec (.wrPbdSer v) s =
      .next { s with
        sys := { s.sys with pbd := v }
        ser := { s.ser with active := false }
        txcon := s.txcon ++ [s.ser.acc] }) ∧
    (s.tapew = true → s.ser.acc ≠ 0 → exec (.wrPbdSer v) s =
      .next { s with
        sys := { s.sys with pbd := v }
        ser := { s.ser with active := false }
        txtape := s.txtape ++ [s.ser.acc] }) ∧
    (s.tapew = true → s.ser.acc = 0 → exec (.wrPbdSer v) s =
      .next { s with
        sys := { s.sys with pbd := v }
        ser := { s.ser with active := false } })

/-- A frame is sent least significant bit first (R212, R218): from Idle, a start write with bit 0
clear, eight writes each after a read, and one more write after a read emit the byte whose bit `i`
is bit 0 of the (i+1)-th of the eight, and leave the shift register Idle. It rests on D16 to D18. -/
def Obligations.FrameIsSentLeastSignificantBitFirst : Prop :=
  ∀ (s : State) (w : Vector Byte 10), s.ser.active = false → w[0].getLsbD 0 = false →
    ∃ (t : State) (b : Byte),
      runOps
        [.wrPbdSer w[0], .rdPbdSer, .wrPbdSer w[1], .rdPbdSer, .wrPbdSer w[2], .rdPbdSer,
          .wrPbdSer w[3], .rdPbdSer, .wrPbdSer w[4], .rdPbdSer, .wrPbdSer w[5], .rdPbdSer,
          .wrPbdSer w[6], .rdPbdSer, .wrPbdSer w[7], .rdPbdSer, .wrPbdSer w[8], .rdPbdSer,
          .wrPbdSer w[9]] s = .next t ∧
      (∀ i : Fin 8, b.getLsbD i.val = w[i.val + 1].getLsbD 0) ∧
      t.ser.active = false ∧
      t.txcon = (if s.tapew then s.txcon else s.txcon ++ [b]) ∧
      t.txtape = (if s.tapew ∧ b ≠ 0 then s.txtape ++ [b] else s.txtape) ∧
      t.sys = { s.sys with pbd := w[9] } ∧ t.app = s.app

/-! The host inputs and reset. -/

/-- `KEYSET`, `MODESET` and `TAPESET` set their input to the operand in the payload, whatever its
other bits, and change nothing else (R231, R232, and the effect R230 gives `KEYSET`). -/
def Obligations.HostInputsAreSetAlone : Prop :=
  ∀ (s : State) (p : BitVec 32) (k : Byte) (x : Bool),
    decode s.cfg.toParams (.evt (evtWord 2 p)) = .ok (.keyset (p.extractLsb' 0 8)) ∧
    decode s.cfg.toParams (.evt (evtWord 3 p)) = .ok (.modeset (p.getLsbD 0)) ∧
    decode s.cfg.toParams (.evt (evtWord 4 p)) = .ok (.tapeset (p.getLsbD 0)) ∧
    exec (.keyset k) s = .next { s with key := k } ∧
    exec (.modeset x) s = .next { s with sermode := x } ∧
    exec (.tapeset x) s = .next { s with tapew := x }

/-- `RESET` gives every element of the state its power-on value and leaves the parameters as they
are (R47, R260). The values are the spec's own decisions D11 to D13, D19 to D21 and D37 (log 5);
the model's own fields keep theirs (logs 6, 7, 8). -/
def Obligations.ResetGivesThePowerOnState : Prop :=
  ∀ (s : State) (p : BitVec 32),
    decode s.cfg.toParams (.evt (evtWord 0 p)) = .ok .reset ∧
    exec .reset s = .next
      { cfg := s.cfg
        app := ⟨0x00, 0x00, 0x00, 0x00, ⟨0, 0x00, 0x00, 0, false⟩⟩
        sys := ⟨0x00, 0x00, 0x00, 0x00, ⟨0, 0x00, 0x00, 0, false⟩⟩
        ser := ⟨false, 0, 0x00, false⟩
        ram := []
        key := s.cfg.keyNone
        sermode := false
        tapew := false
        txcon := []
        txtape := []
        pending := s.pending
        reads := s.reads
        draws := s.draws } ∧
    (∀ t, exec .reset s = .next t → ∀ a, t.ramByte a = s.cfg.ramInitByte a) ∧
    exec .reset (State.resetWith s.cfg) = .next (State.resetWith s.cfg)

/-! The whole machine. -/

/-- Every operation answers a next state from every state, a read with a byte and any other
operation with none (R240). -/
def Obligations.EveryOperationCompletes : Prop :=
  ∀ (i : Instr) (s : State), ∃ t, exec i s = .next t ∧
    (i.isRead = true → ∃ b, t.reads = s.reads ++ [b]) ∧
    (i.isRead = false → t.reads = s.reads)

/-- No operation changes the parameters, and so none remaps, banks or protects a region (R5, R71);
nor does any touch the words still pending. -/
def Obligations.NoOperationChangesTheParameters : Prop :=
  ∀ (i : Instr) (s t : State), exec i s = .next t →
    t.cfg = s.cfg ∧ t.pending = s.pending ∧ ∀ a, t.cfg.regionOf a = s.cfg.regionOf a

/-- Reads change nothing but what R66 lists: a read of offset 2 of `SYS` sets the bit-ready latch,
and a read of the count of a timed-out timer re-arms that timer. In particular they leave RAM, the
port registers, the host inputs and the logs as they were. -/
def Obligations.ReadsChangeOnlyTheirSideEffect : Prop :=
  ∀ (i : Instr) (s t : State), i.isRead = true → exec i s = .next t →
    t.ram = s.ram ∧ (∀ a, t.ramByte a = s.ramByte a) ∧
    t.key = s.key ∧ t.sermode = s.sermode ∧ t.tapew = s.tapew ∧
    t.txcon = s.txcon ∧ t.txtape = s.txtape ∧
    t.ser = (if i.readsSerialLine then { s.ser with bitready := true } else s.ser) ∧
    ∀ c, (t.chip c).pad = (s.chip c).pad ∧ (t.chip c).padd = (s.chip c).padd ∧
      (t.chip c).pbd = (s.chip c).pbd ∧ (t.chip c).pbdd = (s.chip c).pbdd ∧
      (t.chip c).timer =
        (if i.readsCountOf c ∧ (s.chip c).timer.timeout then
          ⟨(s.chip c).timer.prescale, (s.chip c).timer.start, (s.chip c).timer.start, 0, false⟩
        else (s.chip c).timer)

/-- Memory changes only by `WR_RAM`, at its one address, and by `RESET`; every other byte of RAM
reads as before (R123, R131). -/
def Obligations.OnlyRamWritesChangeMemory : Prop :=
  ∀ (i : Instr) (s t : State) (b : Nat), exec i s = .next t → i ≠ .reset →
    (∀ a v, i = .wrRam a v → b ≠ a.toNat) → t.ramByte b = s.ramByte b

/-- The two chips are independent (R152): an operation on chip `c` neither writes nor reads the
registers of the other chip, writes no RAM and no host input, and on `APP` it leaves the shift
register and the logs alone. -/
def Obligations.ChipsAreIndependent : Prop :=
  ∀ (i : Instr) (s t : State) (c d : Chip) (x : ChipRegs),
    i.chipAddressed = some c → d ≠ c → exec i s = .next t →
    t.chip d = s.chip d ∧ exec i (s.setChip d x) = .next (t.setChip d x) ∧
    t.ram = s.ram ∧ t.key = s.key ∧ t.sermode = s.sermode ∧ t.tapew = s.tapew ∧
    (c = .app → t.ser = s.ser ∧ t.txcon = s.txcon ∧ t.txtape = s.txtape)

/-- A host input is changed by its own host operation and `RESET` alone: no bus operation, no register
operation and no `TICK` changes one, nor does the host operation of another (R41, R42, R43); and the
three input operations never touch a port register, a timer, the shift register, RAM or a log
(R233). -/
def Obligations.HostInputsBelongToTheHost : Prop :=
  ∀ (i : Instr) (s t : State), exec i s = .next t →
    ((∀ k, i ≠ .keyset k) → i ≠ .reset → t.key = s.key) ∧
    ((∀ m, i ≠ .modeset m) → i ≠ .reset → t.sermode = s.sermode) ∧
    ((∀ x, i ≠ .tapeset x) → i ≠ .reset → t.tapew = s.tapew) ∧
    ((∃ k, i = .keyset k) ∨ (∃ m, i = .modeset m) ∨ (∃ x, i = .tapeset x) →
      t.app = s.app ∧ t.sys = s.sys ∧ t.ser = s.ser ∧ t.ram = s.ram ∧
      t.txcon = s.txcon ∧ t.txtape = s.txtape)

/-- A timeout latch is set by `TICK` only (R29, R170): but for `RESET`, whatever else runs leaves a
clear latch clear, and leaves each timer as it was or freshly re-armed. -/
def Obligations.OnlyTicksAdvanceTheTimers : Prop :=
  ∀ (i : Instr) (s t : State) (c : Chip), exec i s = .next t → (∀ n, i ≠ .tick n) → i ≠ .reset →
    ((s.chip c).timer.timeout = false → (t.chip c).timer.timeout = false) ∧
    ((t.chip c).timer = (s.chip c).timer ∨
      ((t.chip c).timer.count = (t.chip c).timer.start ∧ (t.chip c).timer.rem = 0 ∧
        (t.chip c).timer.timeout = false))

/-- The logs only grow, by one byte at most (R45): but for `RESET`, an operation leaves both logs as
they were, or it is the emitting write of a frame and appends the accumulated byte to one of
them. -/
def Obligations.LogsGrowOnlyByAnEmittedByte : Prop :=
  ∀ (i : Instr) (s t : State), exec i s = .next t → i ≠ .reset →
    (t.txcon = s.txcon ∧ t.txtape = s.txtape) ∨
    (i.writesSerialLine = true ∧ s.ser.active = true ∧ s.ser.bitready = true ∧
      s.ser.bitcnt = 8 ∧ t.ser.active = false ∧
      ((s.tapew = false ∧ t.txcon = s.txcon ++ [s.ser.acc] ∧ t.txtape = s.txtape) ∨
        (s.tapew = true ∧ s.ser.acc ≠ 0 ∧ t.txtape = s.txtape ++ [s.ser.acc] ∧
          t.txcon = s.txcon)))

/-- The shift register is moved only through its own register (R207, R208, R271): but for `RESET`, an
operation that neither reads nor writes offset 2 of `SYS` leaves it as it was, a read sets the
bit-ready latch alone, a frame ends only at the qualifying write after its eighth bit, and one
starts only at a write. It rests on D16 to D18. -/
def Obligations.ShiftRegisterMovesOnlyThroughItsRegister : Prop :=
  ∀ (i : Instr) (s t : State), exec i s = .next t → i ≠ .reset →
    (i.readsSerialLine = false → i.writesSerialLine = false → t.ser = s.ser) ∧
    (i.readsSerialLine = true → t.ser = { s.ser with bitready := true }) ∧
    (s.ser.active = true → t.ser.active = false →
      i.writesSerialLine = true ∧ s.ser.bitready = true ∧ s.ser.bitcnt = 8) ∧
    (s.ser.active = false → t.ser.active = true → i.writesSerialLine = true)

/-- Every step keeps the invariant of the block: the timer invariants of R30, the bit count of R39,
the form of RAM (R40), and no zero byte on the tape (R273). Some of it is DEDUCED (see
`State.Inv`), and R30 (e) rests on D15. -/
def Obligations.StepKeepsTheBlockInvariant : Prop :=
  ∀ s t : State, s.Inv → step s = .next t → t.Inv

/-- The invariant holds right after reset, for every choice of parameters. -/
def Obligations.ResetMeetsTheBlockInvariant : Prop :=
  (∀ c : Config, (State.resetWith c).Inv) ∧ State.reset.Inv

/-- What an idle shift register has left over cannot be observed (R39, R216): two states that agree
but for it stay so under every operation, with the same bytes read and the same logs. It rests on
D17 to D19. -/
def Obligations.IdleSerialFieldsCannotBeObserved : Prop :=
  ∀ (i : Instr) (s s' t : State), s.SameButIdleSerial s' → exec i s = .next t →
    ∃ t', exec i s' = .next t' ∧ t.SameButIdleSerial t' ∧
      t'.reads = t.reads ∧ t'.txcon = t.txcon ∧ t'.txtape = t.txtape

/-- The byte stored in `PAD[SYS]` cannot be observed (R21): two states that agree but for it stay so
under every operation, with the same bytes read and the same logs. It rests on D8. -/
def Obligations.StoredSysPadCannotBeObserved : Prop :=
  ∀ (i : Instr) (s s' t : State), s.SameButSysPad s' → exec i s = .next t →
    ∃ t', exec i s' = .next t' ∧ t.SameButSysPad t' ∧
      t'.reads = t.reads ∧ t'.txcon = t.txcon ∧ t'.txtape = t.txtape
end

