-- ==== Sys2Proof/Laws/Decode.lean ====
section
/-! SUPPORT. The fields of the descriptor words (spec/30_encoding.md rules R91 to R93). -/

namespace Sys2Proof

theorem busWord_w (w : Bool) (a : Addr) (d : Byte) : (busWord w a d).getLsbD 24 = w := by
  simp only [busWord, BitVec.getLsbD_append]
  cases w <;> rfl

@[simp] theorem busWord_a (w : Bool) (a : Addr) (d : Byte) :
    (busWord w a d).extractLsb' 8 16 = a := by
  ext i hi
  simp only [busWord, BitVec.getElem_extractLsb', BitVec.getLsbD_append]
  rw [if_neg (by omega), if_pos (by omega), show 8 + i - 8 = i by omega]
  exact BitVec.getLsbD_eq_getElem hi

@[simp] theorem busWord_d (w : Bool) (a : Addr) (d : Byte) :
    (busWord w a d).extractLsb' 0 8 = d := by
  ext i hi
  simp only [busWord, BitVec.getElem_extractLsb', BitVec.getLsbD_append]
  rw [if_pos (by omega), Nat.zero_add]
  exact BitVec.getLsbD_eq_getElem hi

@[simp] theorem chipOfBit_chipBit (c : Chip) : chipOfBit (chipBit c) = c := by cases c <;> rfl

theorem regWord_c (c : Chip) (w : Bool) (o : BitVec 6) (d : Byte) :
    (regWord c w o d).getLsbD 15 = chipBit c := by
  simp only [regWord, BitVec.getLsbD_append]
  cases c <;> rfl

theorem regWord_w (c : Chip) (w : Bool) (o : BitVec 6) (d : Byte) :
    (regWord c w o d).getLsbD 14 = w := by
  simp only [regWord, BitVec.getLsbD_append]
  cases w <;> rfl

@[simp] theorem regWord_d (c : Chip) (w : Bool) (o : BitVec 6) (d : Byte) :
    (regWord c w o d).extractLsb' 0 8 = d := by
  ext i hi
  simp only [regWord, BitVec.getElem_extractLsb', BitVec.getLsbD_append]
  rw [if_pos (by omega), Nat.zero_add]
  exact BitVec.getLsbD_eq_getElem hi

/-- The register select of a `REG` word is its local offset modulo 8. -/
@[simp] theorem regWord_r (c : Chip) (w : Bool) (o : BitVec 6) (d : Byte) :
    ((regWord c w o d).extractLsb' 8 3).toNat = o.toNat % 8 := by
  have h : (regWord c w o d).extractLsb' 8 3 = o.extractLsb' 0 3 := by
    ext i hi
    simp only [regWord, BitVec.getElem_extractLsb', BitVec.getLsbD_append]
    rw [if_neg (by omega), if_pos (by omega), show 8 + i - 8 = 0 + i by omega]
  simp [h, BitVec.extractLsb'_toNat]

/-- The register select of a local offset written as alias bits and register select. -/
@[simp] theorem alias_append_mod (m r : BitVec 3) : (m ++ r : BitVec 6).toNat % 8 = r.toNat := by
  have := r.isLt
  rw [BitVec.toNat_append, Nat.shiftLeft_eq, Nat.mul_comm, ← Nat.two_pow_add_eq_or_of_lt this]
  omega

@[simp] theorem evtWord_e (e : BitVec 3) (p : BitVec 32) : (evtWord e p).extractLsb' 32 3 = e := by
  ext i hi
  simp only [evtWord, BitVec.getElem_extractLsb', BitVec.getLsbD_append]
  rw [if_neg (by omega), show 32 + i - 32 = i by omega]
  exact BitVec.getLsbD_eq_getElem hi

@[simp] theorem evtWord_p (e : BitVec 3) (p : BitVec 32) : (evtWord e p).extractLsb' 0 32 = p := by
  ext i hi
  simp only [evtWord, BitVec.getElem_extractLsb', BitVec.getLsbD_append]
  rw [if_pos (by omega), Nat.zero_add]
  exact BitVec.getLsbD_eq_getElem hi

/-- A `REG` word decodes by its `w` bit and its offset modulo 8 (rules R95, R96). -/
theorem decodeReg_regWord (c : Chip) (w : Bool) (o : BitVec 6) (d : Byte) :
    decodeReg (regWord c w o d) =
      if w then decodeRegWrite c (o.toNat % 8) d else decodeRegRead c (o.toNat % 8) := by
  simp only [decodeReg, regWord_c, regWord_w, regWord_d, regWord_r, chipOfBit_chipBit]

/-- A `BUS` word decodes by its `w` bit and the region of its address (rule R94). -/
theorem decodeBus_busWord (p : Params) (w : Bool) (a : Addr) (d : Byte) :
    decodeBus p (busWord w a d) =
      match p.regionOf a.toNat, w with
      | .romA, false => .rdRomA a
      | .romB, false => .rdRomB a
      | .himir, false => .rdHimir a
      | .romA, true => .wrRom a d
      | .romB, true => .wrRom a d
      | .himir, true => .wrRom a d
      | .chip c, false => .rdChip c (p.chipOffset c a.toNat)
      | .chip c, true => .wrChip c (p.chipOffset c a.toNat) d
      | .fn c, false => .rdChip c (p.fnOffset c a.toNat)
      | .fn c, true => .wrChip c (p.fnOffset c a.toNat) d
      | .ram, false => .rdRam a
      | .ram, true => .wrRam a d
      | .none, false => .rdNone a
      | .none, true => .wrNone a d := by
  simp only [decodeBus, busWord_w, busWord_a, busWord_d] <;>
    cases p.regionOf a.toNat <;> cases w <;> rfl

/-- An `EVT` word decodes by its event select (rules R93, R97). -/
theorem decodeEvt_evtWord (e : BitVec 3) (p : BitVec 32) :
    decodeEvt (evtWord e p) =
      match e.toNat with
      | 0 => .ok .reset
      | 1 => .ok (.tick p.toNat)
      | 2 => .ok (.keyset (p.extractLsb' 0 8))
      | 3 => .ok (.modeset (p.getLsbD 0))
      | 4 => .ok (.tapeset (p.getLsbD 0))
      | _ => .error (.eventSelect e) := by
  simp only [decodeEvt, evtWord_e, evtWord_p] <;> rfl

end Sys2Proof
end

