-- ==== Sys2Proof/Laws/State.lean ====
section
/-! SUPPORT. What each update of the state does to each field, so that no proof unfolds an update. -/

namespace Sys2Proof.Machine

@[simp] theorem State.chip_app (s : State) : s.chip .app = s.app := rfl

@[simp] theorem State.chip_sys (s : State) : s.chip .sys = s.sys := rfl

@[simp] theorem State.setChip_cfg (s : State) (c : Chip) (x : ChipRegs) :
    (s.setChip c x).cfg = s.cfg := rfl

@[simp] theorem State.setChip_ser (s : State) (c : Chip) (x : ChipRegs) :
    (s.setChip c x).ser = s.ser := rfl

@[simp] theorem State.setChip_ram (s : State) (c : Chip) (x : ChipRegs) :
    (s.setChip c x).ram = s.ram := rfl

@[simp] theorem State.setChip_key (s : State) (c : Chip) (x : ChipRegs) :
    (s.setChip c x).key = s.key := rfl

@[simp] theorem State.setChip_sermode (s : State) (c : Chip) (x : ChipRegs) :
    (s.setChip c x).sermode = s.sermode := rfl

@[simp] theorem State.setChip_tapew (s : State) (c : Chip) (x : ChipRegs) :
    (s.setChip c x).tapew = s.tapew := rfl

@[simp] theorem State.setChip_txcon (s : State) (c : Chip) (x : ChipRegs) :
    (s.setChip c x).txcon = s.txcon := rfl

@[simp] theorem State.setChip_txtape (s : State) (c : Chip) (x : ChipRegs) :
    (s.setChip c x).txtape = s.txtape := rfl

@[simp] theorem State.setChip_pending (s : State) (c : Chip) (x : ChipRegs) :
    (s.setChip c x).pending = s.pending := rfl

@[simp] theorem State.setChip_reads (s : State) (c : Chip) (x : ChipRegs) :
    (s.setChip c x).reads = s.reads := rfl

@[simp] theorem State.setChip_draws (s : State) (c : Chip) (x : ChipRegs) :
    (s.setChip c x).draws = s.draws := rfl

@[simp] theorem State.setChip_app_app (s : State) (x : ChipRegs) : (s.setChip .app x).app = x := rfl

@[simp] theorem State.setChip_app_sys (s : State) (x : ChipRegs) : (s.setChip .app x).sys = s.sys := rfl

@[simp] theorem State.setChip_sys_app (s : State) (x : ChipRegs) : (s.setChip .sys x).app = s.app := rfl

@[simp] theorem State.setChip_sys_sys (s : State) (x : ChipRegs) : (s.setChip .sys x).sys = x := rfl

@[simp] theorem State.setChip_chip_same (s : State) (c : Chip) (x : ChipRegs) :
    (s.setChip c x).chip c = x := by cases c <;> rfl

theorem State.setChip_chip_other (s : State) (c d : Chip) (x : ChipRegs) (h : d ≠ c) :
    (s.setChip c x).chip d = s.chip d := by
  cases c <;> cases d <;> first | rfl | exact absurd rfl h

@[simp] theorem State.setPad_cfg (s : State) (c : Chip) (v : Byte) :
    (s.setPad c v).cfg = s.cfg := rfl

@[simp] theorem State.setPad_ser (s : State) (c : Chip) (v : Byte) :
    (s.setPad c v).ser = s.ser := rfl

@[simp] theorem State.setPad_ram (s : State) (c : Chip) (v : Byte) :
    (s.setPad c v).ram = s.ram := rfl

@[simp] theorem State.setPad_key (s : State) (c : Chip) (v : Byte) :
    (s.setPad c v).key = s.key := rfl

@[simp] theorem State.setPad_sermode (s : State) (c : Chip) (v : Byte) :
    (s.setPad c v).sermode = s.sermode := rfl

@[simp] theorem State.setPad_tapew (s : State) (c : Chip) (v : Byte) :
    (s.setPad c v).tapew = s.tapew := rfl

@[simp] theorem State.setPad_txcon (s : State) (c : Chip) (v : Byte) :
    (s.setPad c v).txcon = s.txcon := rfl

@[simp] theorem State.setPad_txtape (s : State) (c : Chip) (v : Byte) :
    (s.setPad c v).txtape = s.txtape := rfl

@[simp] theorem State.setPad_pending (s : State) (c : Chip) (v : Byte) :
    (s.setPad c v).pending = s.pending := rfl

@[simp] theorem State.setPad_reads (s : State) (c : Chip) (v : Byte) :
    (s.setPad c v).reads = s.reads := rfl

@[simp] theorem State.setPad_draws (s : State) (c : Chip) (v : Byte) :
    (s.setPad c v).draws = s.draws := rfl

@[simp] theorem State.setPad_chip_same (s : State) (c : Chip) (v : Byte) :
    (s.setPad c v).chip c = { s.chip c with pad := v } := by cases c <;> rfl

theorem State.setPad_chip_other (s : State) (c d : Chip) (v : Byte) (h : d ≠ c) :
    (s.setPad c v).chip d = s.chip d := State.setChip_chip_other s c d _ h

@[simp] theorem State.setPadd_cfg (s : State) (c : Chip) (v : Byte) :
    (s.setPadd c v).cfg = s.cfg := rfl

@[simp] theorem State.setPadd_ser (s : State) (c : Chip) (v : Byte) :
    (s.setPadd c v).ser = s.ser := rfl

@[simp] theorem State.setPadd_ram (s : State) (c : Chip) (v : Byte) :
    (s.setPadd c v).ram = s.ram := rfl

@[simp] theorem State.setPadd_key (s : State) (c : Chip) (v : Byte) :
    (s.setPadd c v).key = s.key := rfl

@[simp] theorem State.setPadd_sermode (s : State) (c : Chip) (v : Byte) :
    (s.setPadd c v).sermode = s.sermode := rfl

@[simp] theorem State.setPadd_tapew (s : State) (c : Chip) (v : Byte) :
    (s.setPadd c v).tapew = s.tapew := rfl

@[simp] theorem State.setPadd_txcon (s : State) (c : Chip) (v : Byte) :
    (s.setPadd c v).txcon = s.txcon := rfl

@[simp] theorem State.setPadd_txtape (s : State) (c : Chip) (v : Byte) :
    (s.setPadd c v).txtape = s.txtape := rfl

@[simp] theorem State.setPadd_pending (s : State) (c : Chip) (v : Byte) :
    (s.setPadd c v).pending = s.pending := rfl

@[simp] theorem State.setPadd_reads (s : State) (c : Chip) (v : Byte) :
    (s.setPadd c v).reads = s.reads := rfl

@[simp] theorem State.setPadd_draws (s : State) (c : Chip) (v : Byte) :
    (s.setPadd c v).draws = s.draws := rfl

@[simp] theorem State.setPadd_chip_same (s : State) (c : Chip) (v : Byte) :
    (s.setPadd c v).chip c = { s.chip c with padd := v } := by cases c <;> rfl

theorem State.setPadd_chip_other (s : State) (c d : Chip) (v : Byte) (h : d ≠ c) :
    (s.setPadd c v).chip d = s.chip d := State.setChip_chip_other s c d _ h

@[simp] theorem State.setPbd_cfg (s : State) (c : Chip) (v : Byte) :
    (s.setPbd c v).cfg = s.cfg := rfl

@[simp] theorem State.setPbd_ser (s : State) (c : Chip) (v : Byte) :
    (s.setPbd c v).ser = s.ser := rfl

@[simp] theorem State.setPbd_ram (s : State) (c : Chip) (v : Byte) :
    (s.setPbd c v).ram = s.ram := rfl

@[simp] theorem State.setPbd_key (s : State) (c : Chip) (v : Byte) :
    (s.setPbd c v).key = s.key := rfl

@[simp] theorem State.setPbd_sermode (s : State) (c : Chip) (v : Byte) :
    (s.setPbd c v).sermode = s.sermode := rfl

@[simp] theorem State.setPbd_tapew (s : State) (c : Chip) (v : Byte) :
    (s.setPbd c v).tapew = s.tapew := rfl

@[simp] theorem State.setPbd_txcon (s : State) (c : Chip) (v : Byte) :
    (s.setPbd c v).txcon = s.txcon := rfl

@[simp] theorem State.setPbd_txtape (s : State) (c : Chip) (v : Byte) :
    (s.setPbd c v).txtape = s.txtape := rfl

@[simp] theorem State.setPbd_pending (s : State) (c : Chip) (v : Byte) :
    (s.setPbd c v).pending = s.pending := rfl

@[simp] theorem State.setPbd_reads (s : State) (c : Chip) (v : Byte) :
    (s.setPbd c v).reads = s.reads := rfl

@[simp] theorem State.setPbd_draws (s : State) (c : Chip) (v : Byte) :
    (s.setPbd c v).draws = s.draws := rfl

@[simp] theorem State.setPbd_chip_same (s : State) (c : Chip) (v : Byte) :
    (s.setPbd c v).chip c = { s.chip c with pbd := v } := by cases c <;> rfl

theorem State.setPbd_chip_other (s : State) (c d : Chip) (v : Byte) (h : d ≠ c) :
    (s.setPbd c v).chip d = s.chip d := State.setChip_chip_other s c d _ h

@[simp] theorem State.setPbdd_cfg (s : State) (c : Chip) (v : Byte) :
    (s.setPbdd c v).cfg = s.cfg := rfl

@[simp] theorem State.setPbdd_ser (s : State) (c : Chip) (v : Byte) :
    (s.setPbdd c v).ser = s.ser := rfl

@[simp] theorem State.setPbdd_ram (s : State) (c : Chip) (v : Byte) :
    (s.setPbdd c v).ram = s.ram := rfl

@[simp] theorem State.setPbdd_key (s : State) (c : Chip) (v : Byte) :
    (s.setPbdd c v).key = s.key := rfl

@[simp] theorem State.setPbdd_sermode (s : State) (c : Chip) (v : Byte) :
    (s.setPbdd c v).sermode = s.sermode := rfl

@[simp] theorem State.setPbdd_tapew (s : State) (c : Chip) (v : Byte) :
    (s.setPbdd c v).tapew = s.tapew := rfl

@[simp] theorem State.setPbdd_txcon (s : State) (c : Chip) (v : Byte) :
    (s.setPbdd c v).txcon = s.txcon := rfl

@[simp] theorem State.setPbdd_txtape (s : State) (c : Chip) (v : Byte) :
    (s.setPbdd c v).txtape = s.txtape := rfl

@[simp] theorem State.setPbdd_pending (s : State) (c : Chip) (v : Byte) :
    (s.setPbdd c v).pending = s.pending := rfl

@[simp] theorem State.setPbdd_reads (s : State) (c : Chip) (v : Byte) :
    (s.setPbdd c v).reads = s.reads := rfl

@[simp] theorem State.setPbdd_draws (s : State) (c : Chip) (v : Byte) :
    (s.setPbdd c v).draws = s.draws := rfl

@[simp] theorem State.setPbdd_chip_same (s : State) (c : Chip) (v : Byte) :
    (s.setPbdd c v).chip c = { s.chip c with pbdd := v } := by cases c <;> rfl

theorem State.setPbdd_chip_other (s : State) (c d : Chip) (v : Byte) (h : d ≠ c) :
    (s.setPbdd c v).chip d = s.chip d := State.setChip_chip_other s c d _ h

@[simp] theorem State.setTimer_cfg (s : State) (c : Chip) (t : Timer) :
    (s.setTimer c t).cfg = s.cfg := rfl

@[simp] theorem State.setTimer_ser (s : State) (c : Chip) (t : Timer) :
    (s.setTimer c t).ser = s.ser := rfl

@[simp] theorem State.setTimer_ram (s : State) (c : Chip) (t : Timer) :
    (s.setTimer c t).ram = s.ram := rfl

@[simp] theorem State.setTimer_key (s : State) (c : Chip) (t : Timer) :
    (s.setTimer c t).key = s.key := rfl

@[simp] theorem State.setTimer_sermode (s : State) (c : Chip) (t : Timer) :
    (s.setTimer c t).sermode = s.sermode := rfl

@[simp] theorem State.setTimer_tapew (s : State) (c : Chip) (t : Timer) :
    (s.setTimer c t).tapew = s.tapew := rfl

@[simp] theorem State.setTimer_txcon (s : State) (c : Chip) (t : Timer) :
    (s.setTimer c t).txcon = s.txcon := rfl

@[simp] theorem State.setTimer_txtape (s : State) (c : Chip) (t : Timer) :
    (s.setTimer c t).txtape = s.txtape := rfl

@[simp] theorem State.setTimer_pending (s : State) (c : Chip) (t : Timer) :
    (s.setTimer c t).pending = s.pending := rfl

@[simp] theorem State.setTimer_reads (s : State) (c : Chip) (t : Timer) :
    (s.setTimer c t).reads = s.reads := rfl

@[simp] theorem State.setTimer_draws (s : State) (c : Chip) (t : Timer) :
    (s.setTimer c t).draws = s.draws := rfl

@[simp] theorem State.setTimer_chip_same (s : State) (c : Chip) (t : Timer) :
    (s.setTimer c t).chip c = { s.chip c with timer := t } := by cases c <;> rfl

theorem State.setTimer_chip_other (s : State) (c d : Chip) (t : Timer) (h : d ≠ c) :
    (s.setTimer c t).chip d = s.chip d := State.setChip_chip_other s c d _ h

@[simp] theorem State.setPad_app_app (s : State) (v : Byte) :
    (s.setPad .app v).app = { s.app with pad := v } := rfl

@[simp] theorem State.setPad_app_sys (s : State) (v : Byte) : (s.setPad .app v).sys = s.sys := rfl

@[simp] theorem State.setPad_sys_app (s : State) (v : Byte) : (s.setPad .sys v).app = s.app := rfl

@[simp] theorem State.setPad_sys_sys (s : State) (v : Byte) :
    (s.setPad .sys v).sys = { s.sys with pad := v } := rfl

@[simp] theorem State.setPadd_app_app (s : State) (v : Byte) :
    (s.setPadd .app v).app = { s.app with padd := v } := rfl

@[simp] theorem State.setPadd_app_sys (s : State) (v : Byte) : (s.setPadd .app v).sys = s.sys := rfl

@[simp] theorem State.setPadd_sys_app (s : State) (v : Byte) : (s.setPadd .sys v).app = s.app := rfl

@[simp] theorem State.setPadd_sys_sys (s : State) (v : Byte) :
    (s.setPadd .sys v).sys = { s.sys with padd := v } := rfl

@[simp] theorem State.setPbd_app_app (s : State) (v : Byte) :
    (s.setPbd .app v).app = { s.app with pbd := v } := rfl

@[simp] theorem State.setPbd_app_sys (s : State) (v : Byte) : (s.setPbd .app v).sys = s.sys := rfl

@[simp] theorem State.setPbd_sys_app (s : State) (v : Byte) : (s.setPbd .sys v).app = s.app := rfl

@[simp] theorem State.setPbd_sys_sys (s : State) (v : Byte) :
    (s.setPbd .sys v).sys = { s.sys with pbd := v } := rfl

@[simp] theorem State.setPbdd_app_app (s : State) (v : Byte) :
    (s.setPbdd .app v).app = { s.app with pbdd := v } := rfl

@[simp] theorem State.setPbdd_app_sys (s : State) (v : Byte) : (s.setPbdd .app v).sys = s.sys := rfl

@[simp] theorem State.setPbdd_sys_app (s : State) (v : Byte) : (s.setPbdd .sys v).app = s.app := rfl

@[simp] theorem State.setPbdd_sys_sys (s : State) (v : Byte) :
    (s.setPbdd .sys v).sys = { s.sys with pbdd := v } := rfl

@[simp] theorem State.setTimer_app_app (s : State) (t : Timer) :
    (s.setTimer .app t).app = { s.app with timer := t } := rfl

@[simp] theorem State.setTimer_app_sys (s : State) (t : Timer) : (s.setTimer .app t).sys = s.sys := rfl

@[simp] theorem State.setTimer_sys_app (s : State) (t : Timer) : (s.setTimer .sys t).app = s.app := rfl

@[simp] theorem State.setTimer_sys_sys (s : State) (t : Timer) :
    (s.setTimer .sys t).sys = { s.sys with timer := t } := rfl

@[simp] theorem State.setSer_cfg (s : State) (x : Serial) : (s.setSer x).cfg = s.cfg := rfl

@[simp] theorem State.setSer_app (s : State) (x : Serial) : (s.setSer x).app = s.app := rfl

@[simp] theorem State.setSer_sys (s : State) (x : Serial) : (s.setSer x).sys = s.sys := rfl

@[simp] theorem State.setSer_ser (s : State) (x : Serial) : (s.setSer x).ser = x := rfl

@[simp] theorem State.setSer_ram (s : State) (x : Serial) : (s.setSer x).ram = s.ram := rfl

@[simp] theorem State.setSer_key (s : State) (x : Serial) : (s.setSer x).key = s.key := rfl

@[simp] theorem State.setSer_sermode (s : State) (x : Serial) :
    (s.setSer x).sermode = s.sermode := rfl

@[simp] theorem State.setSer_tapew (s : State) (x : Serial) : (s.setSer x).tapew = s.tapew := rfl

@[simp] theorem State.setSer_txcon (s : State) (x : Serial) : (s.setSer x).txcon = s.txcon := rfl

@[simp] theorem State.setSer_txtape (s : State) (x : Serial) : (s.setSer x).txtape = s.txtape := rfl

@[simp] theorem State.setSer_pending (s : State) (x : Serial) :
    (s.setSer x).pending = s.pending := rfl

@[simp] theorem State.setSer_reads (s : State) (x : Serial) : (s.setSer x).reads = s.reads := rfl

@[simp] theorem State.setSer_draws (s : State) (x : Serial) : (s.setSer x).draws = s.draws := rfl

@[simp] theorem State.setSer_chip (s : State) (x : Serial) (c : Chip) : (s.setSer x).chip c = s.chip c := rfl

@[simp] theorem State.answer_cfg (s : State) (v : Byte) : (s.answer v).cfg = s.cfg := rfl

@[simp] theorem State.answer_app (s : State) (v : Byte) : (s.answer v).app = s.app := rfl

@[simp] theorem State.answer_sys (s : State) (v : Byte) : (s.answer v).sys = s.sys := rfl

@[simp] theorem State.answer_ser (s : State) (v : Byte) : (s.answer v).ser = s.ser := rfl

@[simp] theorem State.answer_ram (s : State) (v : Byte) : (s.answer v).ram = s.ram := rfl

@[simp] theorem State.answer_key (s : State) (v : Byte) : (s.answer v).key = s.key := rfl

@[simp] theorem State.answer_sermode (s : State) (v : Byte) :
    (s.answer v).sermode = s.sermode := rfl

@[simp] theorem State.answer_tapew (s : State) (v : Byte) : (s.answer v).tapew = s.tapew := rfl

@[simp] theorem State.answer_txcon (s : State) (v : Byte) : (s.answer v).txcon = s.txcon := rfl

@[simp] theorem State.answer_txtape (s : State) (v : Byte) : (s.answer v).txtape = s.txtape := rfl

@[simp] theorem State.answer_pending (s : State) (v : Byte) :
    (s.answer v).pending = s.pending := rfl

@[simp] theorem State.answer_reads (s : State) (v : Byte) :
    (s.answer v).reads = s.reads ++ [v] := rfl

@[simp] theorem State.answer_draws (s : State) (v : Byte) : (s.answer v).draws = s.draws := rfl

@[simp] theorem State.answer_chip (s : State) (v : Byte) (c : Chip) : (s.answer v).chip c = s.chip c := rfl

@[simp] theorem State.answerDraw_cfg (s : State) : s.answerDraw.cfg = s.cfg := rfl

@[simp] theorem State.answerDraw_app (s : State) : s.answerDraw.app = s.app := rfl

@[simp] theorem State.answerDraw_sys (s : State) : s.answerDraw.sys = s.sys := rfl

@[simp] theorem State.answerDraw_ser (s : State) : s.answerDraw.ser = s.ser := rfl

@[simp] theorem State.answerDraw_ram (s : State) : s.answerDraw.ram = s.ram := rfl

@[simp] theorem State.answerDraw_key (s : State) : s.answerDraw.key = s.key := rfl

@[simp] theorem State.answerDraw_sermode (s : State) : s.answerDraw.sermode = s.sermode := rfl

@[simp] theorem State.answerDraw_tapew (s : State) : s.answerDraw.tapew = s.tapew := rfl

@[simp] theorem State.answerDraw_txcon (s : State) : s.answerDraw.txcon = s.txcon := rfl

@[simp] theorem State.answerDraw_txtape (s : State) : s.answerDraw.txtape = s.txtape := rfl

@[simp] theorem State.answerDraw_pending (s : State) : s.answerDraw.pending = s.pending := rfl

@[simp] theorem State.answerDraw_reads (s : State) :
    s.answerDraw.reads = s.reads ++ [draw8 s.draws] := rfl

@[simp] theorem State.answerDraw_draws (s : State) : s.answerDraw.draws = s.draws + 1 := rfl

@[simp] theorem State.answerDraw_chip (s : State) (c : Chip) : s.answerDraw.chip c = s.chip c := rfl

@[simp] theorem State.setRamByte_cfg (s : State) (a : Nat) (v : Byte) :
    (s.setRamByte a v).cfg = s.cfg := rfl

@[simp] theorem State.setRamByte_app (s : State) (a : Nat) (v : Byte) :
    (s.setRamByte a v).app = s.app := rfl

@[simp] theorem State.setRamByte_sys (s : State) (a : Nat) (v : Byte) :
    (s.setRamByte a v).sys = s.sys := rfl

@[simp] theorem State.setRamByte_ser (s : State) (a : Nat) (v : Byte) :
    (s.setRamByte a v).ser = s.ser := rfl

@[simp] theorem State.setRamByte_ram (s : State) (a : Nat) (v : Byte) :
    (s.setRamByte a v).ram = Memory.write (s.cfg.ramInitByte a) s.ram a v := rfl

@[simp] theorem State.setRamByte_key (s : State) (a : Nat) (v : Byte) :
    (s.setRamByte a v).key = s.key := rfl

@[simp] theorem State.setRamByte_sermode (s : State) (a : Nat) (v : Byte) :
    (s.setRamByte a v).sermode = s.sermode := rfl

@[simp] theorem State.setRamByte_tapew (s : State) (a : Nat) (v : Byte) :
    (s.setRamByte a v).tapew = s.tapew := rfl

@[simp] theorem State.setRamByte_txcon (s : State) (a : Nat) (v : Byte) :
    (s.setRamByte a v).txcon = s.txcon := rfl

@[simp] theorem State.setRamByte_txtape (s : State) (a : Nat) (v : Byte) :
    (s.setRamByte a v).txtape = s.txtape := rfl

@[simp] theorem State.setRamByte_pending (s : State) (a : Nat) (v : Byte) :
    (s.setRamByte a v).pending = s.pending := rfl

@[simp] theorem State.setRamByte_reads (s : State) (a : Nat) (v : Byte) :
    (s.setRamByte a v).reads = s.reads := rfl

@[simp] theorem State.setRamByte_draws (s : State) (a : Nat) (v : Byte) :
    (s.setRamByte a v).draws = s.draws := rfl

@[simp] theorem State.setRamByte_chip (s : State) (a : Nat) (v : Byte) (c : Chip) : (s.setRamByte a v).chip c = s.chip c := rfl

@[simp] theorem State.powerOn_cfg (s : State) : s.powerOn.cfg = s.cfg := rfl

@[simp] theorem State.powerOn_app (s : State) : s.powerOn.app = ChipRegs.reset := rfl

@[simp] theorem State.powerOn_sys (s : State) : s.powerOn.sys = ChipRegs.reset := rfl

@[simp] theorem State.powerOn_ser (s : State) : s.powerOn.ser = Serial.reset := rfl

@[simp] theorem State.powerOn_ram (s : State) : s.powerOn.ram = [] := rfl

@[simp] theorem State.powerOn_key (s : State) : s.powerOn.key = s.cfg.keyNone := rfl

@[simp] theorem State.powerOn_sermode (s : State) : s.powerOn.sermode = false := rfl

@[simp] theorem State.powerOn_tapew (s : State) : s.powerOn.tapew = false := rfl

@[simp] theorem State.powerOn_txcon (s : State) : s.powerOn.txcon = [] := rfl

@[simp] theorem State.powerOn_txtape (s : State) : s.powerOn.txtape = [] := rfl

@[simp] theorem State.powerOn_pending (s : State) : s.powerOn.pending = s.pending := rfl

@[simp] theorem State.powerOn_reads (s : State) : s.powerOn.reads = s.reads := rfl

@[simp] theorem State.powerOn_draws (s : State) : s.powerOn.draws = s.draws := rfl

/-- Power-on is the reset state with the same parameters, but for the model's own fields. -/
theorem State.powerOn_eq_resetWith (s : State) :
    s.powerOn =
      { State.resetWith s.cfg with pending := s.pending, reads := s.reads, draws := s.draws } := rfl

end Sys2Proof.Machine
end

