-- ==== Sys2Proof/Laws/Exec.lean ====
section
/-! SUPPORT. What `exec` answers for each operation, said once; what a step does; and the register
decoder of the chips, which agrees with the decoder of `REG` words. -/

namespace Sys2Proof.Machine

section
variable (s : State) (c : Chip) (a : Addr) (o : BitVec 6) (v : Byte)

@[simp] theorem exec_rdRomA :
    exec (.rdRomA a) s = .next (s.answer (s.cfg.romByte .a (romIndex s.cfg.romABase a))) := rfl

@[simp] theorem exec_rdRomB :
    exec (.rdRomB a) s = .next (s.answer (s.cfg.romByte .b (romIndex s.cfg.romBBase a))) := rfl

@[simp] theorem exec_rdHimir :
    exec (.rdHimir a) s =
      .next (s.answer (s.cfg.romByte s.cfg.himirRom (himirIndex s.cfg.toParams a))) := rfl

@[simp] theorem exec_wrRom : exec (.wrRom a v) s = .next s := rfl

@[simp] theorem exec_rdRam : exec (.rdRam a) s = .next (s.answer (s.ramByte a.toNat)) := rfl

@[simp] theorem exec_wrRam : exec (.wrRam a v) s = .next (s.setRamByte a.toNat v) := rfl

@[simp] theorem exec_rdNone : exec (.rdNone a) s = .next (s.answer 0) := rfl

@[simp] theorem exec_wrNone : exec (.wrNone a v) s = .next s := rfl

@[simp] theorem exec_rdPad : exec .rdPad s = .next (s.answer s.app.pad) := rfl

@[simp] theorem exec_rdPadKey :
    exec .rdPadKey s =
      .next (s.answer (scan s.cfg.keypat (scanRow s.sys.pbd) s.key s.sermode)) := rfl

@[simp] theorem exec_rdPadd : exec (.rdPadd c) s = .next (s.answer (s.chip c).padd) := rfl

@[simp] theorem exec_rdPbd : exec .rdPbd s = .next (s.answer s.app.pbd) := rfl

@[simp] theorem exec_rdPbdSer :
    exec .rdPbdSer s =
      .next ((s.answer s.sys.pbd).setSer { s.ser with bitready := true }) := rfl

@[simp] theorem exec_rdPbdd : exec (.rdPbdd c) s = .next (s.answer (s.chip c).pbdd) := rfl

@[simp] theorem exec_rdT4 : exec (.rdT4 c) s = .next s.answerDraw := rfl

@[simp] theorem exec_rdT5 : exec (.rdT5 c) s = .next s.answerDraw := rfl

theorem exec_rdTcnt_running (h : (s.chip c).timer.timeout = false) :
    exec (.rdTcnt c) s = .next (s.answer (s.chip c).timer.count) := by
  simp [exec, execRdTcnt, h]

theorem exec_rdTcnt_timedOut (h : (s.chip c).timer.timeout = true) :
    exec (.rdTcnt c) s =
      .next ((s.answer 0).setTimer c
        (timerReset (s.chip c).timer.prescale (s.chip c).timer.start)) := by
  simp [exec, execRdTcnt, h]

@[simp] theorem exec_rdTstat :
    exec (.rdTstat c) s = .next (s.answer (statusByte (s.chip c).timer.timeout)) := rfl

@[simp] theorem exec_wrPad : exec (.wrPad c v) s = .next (s.setPad c v) := rfl

@[simp] theorem exec_wrPadd : exec (.wrPadd c v) s = .next (s.setPadd c v) := rfl

@[simp] theorem exec_wrPbd : exec (.wrPbd v) s = .next (s.setPbd .app v) := rfl

@[simp] theorem exec_wrPbdSer :
    exec (.wrPbdSer v) s = .next ((s.setPbd .sys v).serialWrite (serialBit v)) := rfl

@[simp] theorem exec_wrPbdd : exec (.wrPbdd c v) s = .next (s.setPbdd c v) := rfl

@[simp] theorem exec_wrTim1 : exec (.wrTim1 c v) s = .next (s.setTimer c (timerReset 1 v)) := rfl

@[simp] theorem exec_wrTim8 : exec (.wrTim8 c v) s = .next (s.setTimer c (timerReset 8 v)) := rfl

@[simp] theorem exec_wrTim64 :
    exec (.wrTim64 c v) s = .next (s.setTimer c (timerReset 64 v)) := rfl

@[simp] theorem exec_wrTim1024 :
    exec (.wrTim1024 c v) s = .next (s.setTimer c (timerReset 1024 v)) := rfl

@[simp] theorem exec_reset : exec .reset s = .next s.powerOn := rfl

theorem exec_tick (n : Nat) :
    exec (.tick n) s =
      .next ((s.setTimer .app (timerUpdate n s.app.timer)).setTimer .sys
        (timerUpdate n s.sys.timer)) := rfl

@[simp] theorem exec_keyset (k : Byte) : exec (.keyset k) s = .next { s with key := k } := rfl

@[simp] theorem exec_modeset (m : Bool) : exec (.modeset m) s = .next { s with sermode := m } := rfl

@[simp] theorem exec_tapeset (t : Bool) : exec (.tapeset t) s = .next { s with tapew := t } := rfl

/-- `ChipRead` runs the operation the decoder of `REG` words names (rules R95, R140). -/
theorem chipRead_eq_exec (r : Nat) : chipRead c r s = exec (decodeRegRead c r) s := by
  match r with
  | 0 | 1 | 2 | 3 | 4 | 5 | 6 => cases c <;> rfl
  | _ + 7 => cases c <;> rfl

/-- `ChipWrite` runs the operation the decoder of `REG` words names (rules R95, R141). -/
theorem chipWrite_eq_exec (r : Nat) : chipWrite c r v s = exec (decodeRegWrite c r v) s := by
  match r with
  | 0 | 1 | 2 | 3 | 4 | 5 | 6 => cases c <;> rfl
  | _ + 7 => cases c <;> rfl

theorem exec_rdChip : exec (.rdChip c o) s = exec (decodeRegRead c (o.toNat % 8)) s :=
  chipRead_eq_exec s c _

theorem exec_wrChip : exec (.wrChip c o v) s = exec (decodeRegWrite c (o.toNat % 8) v) s :=
  chipWrite_eq_exec s c v _

end

/-- The operations a next state can come from, said once: the two ways of reading a count, any
operation that is neither that nor a chip access through the bus (where `exec` unfolds), and a chip
access, which is the register operation its offset decodes to. -/
theorem exec_next_cases (P : Instr → State → State → Prop)
    (running : ∀ c s, (s.chip c).timer.timeout = false →
      P (.rdTcnt c) s (s.answer (s.chip c).timer.count))
    (timedOut : ∀ c s, (s.chip c).timer.timeout = true →
      P (.rdTcnt c) s ((s.answer 0).setTimer c
        (timerReset (s.chip c).timer.prescale (s.chip c).timer.start)))
    (plain : ∀ i s t, exec i s = .next t → (∀ c, i ≠ .rdTcnt c) → (∀ c o, i ≠ .rdChip c o) →
      (∀ c o v, i ≠ .wrChip c o v) → P i s t)
    (chipRead : ∀ c o s t, P (decodeRegRead c (o.toNat % 8)) s t → P (.rdChip c o) s t)
    (chipWrite : ∀ c o v s t, P (decodeRegWrite c (o.toNat % 8) v) s t → P (.wrChip c o v) s t)
    (i : Instr) (s t : State) (h : exec i s = .next t) : P i s t := by
  have count : ∀ c s t, exec (.rdTcnt c) s = .next t → P (.rdTcnt c) s t := by
    intro c s t h
    cases ht : (s.chip c).timer.timeout with
    | false => rw [exec_rdTcnt_running s c ht] at h; cases h; exact running _ _ ht
    | true => rw [exec_rdTcnt_timedOut s c ht] at h; cases h; exact timedOut _ _ ht
  cases i
  case rdTcnt c => exact count c s t h
  case rdChip c o =>
    rw [exec_rdChip] at h
    refine chipRead c o s t ?_
    generalize o.toNat % 8 = r at h ⊢
    match r with
    | 6 => exact count c s t h
    | 0 | 1 | 2 | 3 | 4 | 5 =>
      cases c <;> exact plain _ _ _ h (by simp [decodeRegRead]) (by simp [decodeRegRead])
        (by simp [decodeRegRead])
    | _ + 7 =>
      cases c <;> exact plain _ _ _ h (by simp [decodeRegRead]) (by simp [decodeRegRead])
        (by simp [decodeRegRead])
  case wrChip c o v =>
    rw [exec_wrChip] at h
    refine chipWrite c o v s t ?_
    generalize o.toNat % 8 = r at h ⊢
    match r with
    | 0 | 1 | 2 | 3 | 4 | 5 | 6 =>
      cases c <;> exact plain _ _ _ h (by simp [decodeRegWrite]) (by simp [decodeRegWrite])
        (by simp [decodeRegWrite])
    | _ + 7 =>
      cases c <;> exact plain _ _ _ h (by simp [decodeRegWrite]) (by simp [decodeRegWrite])
        (by simp [decodeRegWrite])
  all_goals exact plain _ _ _ h (by simp) (by simp) (by simp)

/-- The step of a state with nothing pending. -/
theorem step_of_nil {s : State} (h : s.pending = []) : step s = .next s := by
  simp [step, h]

/-- The step of a state whose next word decodes. -/
theorem step_of_ok {s : State} {word : Presented} {rest : List Presented} {i : Instr}
    (h : s.pending = word :: rest) (hd : decode s.cfg.toParams word = .ok i) :
    step s = exec i { s with pending := rest } := by
  simp [step, h, hd]

/-- The step of a state whose next word spells no operation. -/
theorem step_of_error {s : State} {word : Presented} {rest : List Presented} {why : DecodeError}
    (h : s.pending = word :: rest) (hd : decode s.cfg.toParams word = .error why) :
    step s = .refused (.undecodable why) := by
  simp [step, h, hd]

/-- Under the suggested parameters the step after `withFetchWord` runs the operation the decoder
reads from the table word, on the state as it was. -/
theorem step_withFetchWord {s : State} {nbits w : Nat} {i : Instr} (hc : s.cfg = Config.suggested)
    (hd : decodeTableWord nbits w = some i) : step (s.withFetchWord nbits w) = exec i s := by
  have hw : decode s.cfg.toParams (presentedOfTable nbits w) = .ok i := by
    rw [hc]
    revert hd
    unfold decodeTableWord
    split <;> intro hd <;> simp_all
  exact step_of_ok (s := s.withFetchWord nbits w) (rest := s.pending) rfl hw

end Sys2Proof.Machine
end

