-- ==== Sys2Proof/Laws/Regions.lean ====
section
/-! SUPPORT. What the constraints on the parameters give (spec/00_scope.md rule R5): windows that do
not overlap, the mirror inside its image, key patterns that are distinct and not 0xFF. -/

namespace Sys2Proof

theorem Window.contains_iff (w : Window) (a : Nat) :
    w.contains a = true ↔ w.base ≤ a ∧ a < w.base + w.size := by
  simp only [Window.contains, Bool.and_eq_true, decide_eq_true_eq]

theorem Params.inRomA_iff (p : Params) (a : Nat) :
    p.inRomA a = true ↔ p.romABase ≤ a ∧ a < p.romABase + 1024 := Window.contains_iff _ a

theorem Params.inRomB_iff (p : Params) (a : Nat) :
    p.inRomB a = true ↔ p.romBBase ≤ a ∧ a < p.romBBase + 1024 := Window.contains_iff _ a

theorem Params.inHimir_iff (p : Params) (a : Nat) :
    p.inHimir a = true ↔ p.himirBase ≤ a ∧ a < p.himirBase + p.himirSize :=
  Window.contains_iff _ a

theorem Params.inChip_iff (p : Params) (c : Chip) (a : Nat) :
    p.inChip c a = true ↔ p.chipBase c ≤ a ∧ a < p.chipBase c + 64 := Window.contains_iff _ a

theorem Window.not_contains_of_disjoint {v w : Window} {a : Nat} (h : v.disjoint w = true)
    (hv : v.contains a = true) : w.contains a = false := by
  simp only [Window.disjoint, Window.contains, Bool.or_eq_true, Bool.and_eq_true, beq_iff_eq,
    decide_eq_true_eq] at h hv
  rw [Bool.eq_false_iff]
  intro hw
  simp only [Window.contains, Bool.and_eq_true, decide_eq_true_eq] at hw
  omega

/-- In a list of pairwise disjoint windows, an address in one lies in no later one. -/
theorem Window.allDisjoint_cons {w : Window} {l : List Window} {a : Nat}
    (h : Window.allDisjoint (w :: l) = true) (hw : w.contains a = true) :
    ∀ x ∈ l, x.contains a = false := by
  simp only [Window.allDisjoint, Bool.and_eq_true, List.all_eq_true] at h
  exact fun x hx => Window.not_contains_of_disjoint (h.1 x hx) hw

/-- An address in a later window of a list of pairwise disjoint ones is not in the first. -/
theorem Window.allDisjoint_head {w x : Window} {l : List Window} {a : Nat}
    (h : Window.allDisjoint (w :: l) = true) (hx : x ∈ l) (ha : x.contains a = true) :
    w.contains a = false := by
  cases hw : w.contains a with
  | false => rfl
  | true => exact absurd ha (by simp [Window.allDisjoint_cons h hw x hx])

theorem Window.allDisjoint_tail {w : Window} {l : List Window}
    (h : Window.allDisjoint (w :: l) = true) : Window.allDisjoint l = true := by
  simp only [Window.allDisjoint, Bool.and_eq_true] at h
  exact h.2

namespace Config

variable (c : Config)

theorem mapOk : c.toParams.mapOk = true := by
  have h := c.valid_eq
  simp only [Params.valid, Bool.and_eq_true] at h
  exact h.1.1.1

theorem keypatOk : c.toParams.keypatOk = true := by
  have h := c.valid_eq
  simp only [Params.valid, Bool.and_eq_true] at h
  exact h.1.2

theorem allDisjoint : Window.allDisjoint c.windows = true := by
  have h := c.mapOk
  simp only [Params.mapOk, Bool.and_eq_true] at h
  exact h.1.1.1.2

theorem window_fits {w : Window} (hw : w ∈ c.windows) : w.base + w.size ≤ 0x10000 := by
  have h := c.mapOk
  simp only [Params.mapOk, Bool.and_eq_true, List.all_eq_true, Window.fits,
    decide_eq_true_eq] at h
  exact h.1.1.1.1 w hw

theorem fnWindow_size {chip : Chip} {w : Window} (hw : c.fnWindow chip = some w) :
    w.size < 64 := by
  have h := c.mapOk
  simp only [Params.mapOk, Bool.and_eq_true, List.all_eq_true, decide_eq_true_eq] at h
  cases chip with
  | app => exact h.1.1.2 w (by simp_all [Params.fnWindow])
  | sys => exact h.1.2 w (by simp_all [Params.fnWindow])

theorem himir_in_image : c.himirOff + c.himirSize ≤ 1024 := by
  have h := c.mapOk
  simp only [Params.mapOk, Bool.and_eq_true, decide_eq_true_eq] at h
  exact h.2

theorem keypat_nodup : c.keypat.toList.Nodup := by
  have h := c.keypatOk
  simp only [Params.keypatOk, Bool.and_eq_true, decide_eq_true_eq] at h
  exact h.2

/-- Two positions with the same pattern are the same position. -/
theorem keypat_inj {i j : Nat} (hi : i < 7) (hj : j < 7) (h : c.keypat[i] = c.keypat[j]) :
    i = j := by
  have hp := List.pairwise_iff_getElem.1 c.keypat_nodup
  have key : ∀ x y (_ : x < 7) (_ : y < 7), x < y → c.keypat[x] ≠ c.keypat[y] := by
    intro x y hx hy hxy
    have h := hp x y (by simp [hx]) (by simp [hy]) hxy
    rwa [Vector.getElem_toList, Vector.getElem_toList] at h
  rcases Nat.lt_trichotomy i j with hij | hij | hij
  · exact absurd h (key i j hi hj hij)
  · exact hij
  · exact absurd h.symm (key j i hj hi hij)

/-- No pattern is 0xFF: each has a 0 bit. -/
theorem keypat_ne_ff {i : Nat} (hi : i < 7) : c.keypat[i] ≠ 0xFF := by
  have h := c.keypatOk
  simp only [Params.keypatOk, Bool.and_eq_true, List.all_eq_true] at h
  intro hff
  have := h.1 c.keypat[i] (by simp)
  rw [hff] at this
  exact absurd this (by decide)

end Config

end Sys2Proof
end

