-- ==== Sys2Proof/Laws/Keyboard.lean ====
section
/-! SUPPORT. What the scan answers, row by row (spec/43_keyboard_scan.md rule R190). -/

namespace Sys2Proof.Machine

variable (keypat : Vector Byte 7) (key : Byte) (mode : Bool)

theorem scan_row0 (h : key.toNat ≤ 6) : scan keypat 0 key mode = keypat[key.toNat] := by
  simp only [scan, if_true, dif_pos h]

theorem scan_row0_none (h : 6 < key.toNat) : scan keypat 0 key mode = 0xFF := by
  simp only [scan, if_true, dif_neg (Nat.not_le.2 h)]

theorem scan_row1 (h : 7 ≤ key.toNat ∧ key.toNat ≤ 13) :
    scan keypat 1 key mode = keypat[key.toNat - 7] := by
  simp only [scan, if_true, if_neg (show ¬(1 = 0) by decide), dif_pos h]

theorem scan_row1_none (h : ¬(7 ≤ key.toNat ∧ key.toNat ≤ 13)) :
    scan keypat 1 key mode = 0xFF := by
  simp only [scan, if_true, if_neg (show ¬(1 = 0) by decide), dif_neg h]

theorem scan_row2 (h : 14 ≤ key.toNat ∧ key.toNat ≤ 20) :
    scan keypat 2 key mode = keypat[key.toNat - 14] := by
  simp only [scan, if_true, if_neg (show ¬(2 = 0) by decide), if_neg (show ¬(2 = 1) by decide),
    dif_pos h]

theorem scan_row2_none (h : ¬(14 ≤ key.toNat ∧ key.toNat ≤ 20)) :
    scan keypat 2 key mode = 0xFF := by
  simp only [scan, if_true, if_neg (show ¬(2 = 0) by decide), if_neg (show ¬(2 = 1) by decide),
    dif_neg h]

@[simp] theorem scan_row3 : scan keypat 3 key mode = if mode then 0x00 else 0xFF := rfl

theorem scan_other {row : Nat} (h : 4 ≤ row) : scan keypat row key mode = 0x80 := by
  have h0 : row ≠ 0 := by omega
  have h1 : row ≠ 1 := by omega
  have h2 : row ≠ 2 := by omega
  have h3 : row ≠ 3 := by omega
  simp only [scan, if_neg h0, if_neg h1, if_neg h2, if_neg h3]

end Sys2Proof.Machine
end

