-- ==== Sys2Proof/Laws/Memory.lean ====
section
/-! SUPPORT. The laws of memory: a read after a write, the other addresses, and the canonical form. -/

namespace Sys2Proof

theorem Memory.rising_tail {e : Host.Cell} {m : Memory} (h : Memory.rising (e :: m) = true) :
    Memory.rising m = true := by
  cases m with
  | nil => rfl
  | cons x rest => simp only [Memory.rising, Bool.and_eq_true] at h; exact h.2

/-- In a rising memory the first address is below every later one. -/
theorem Memory.rising_head_lt {e : Host.Cell} {m : Memory} (h : Memory.rising (e :: m) = true) :
    ∀ x ∈ m, e.1 < x.1 := by
  induction m generalizing e with
  | nil => simp
  | cons y rest ih =>
    have hy : e.1 < y.1 := by
      simp only [Memory.rising, Bool.and_eq_true, decide_eq_true_eq] at h; exact h.1
    intro x hx
    rcases List.mem_cons.1 hx with rfl | hx
    · exact hy
    · exact Nat.lt_trans hy (ih (Memory.rising_tail h) x hx)

theorem Memory.rising_cons {e : Host.Cell} {m : Memory} (hm : Memory.rising m = true)
    (h : ∀ x ∈ m, e.1 < x.1) : Memory.rising (e :: m) = true := by
  cases m with
  | nil => rfl
  | cons y rest => simp [Memory.rising, hm, h y (by simp)]

theorem Memory.readOr_not_listed {u : Byte} {m : Memory} {a : Nat} (h : ∀ x ∈ m, x.1 ≠ a) :
    Memory.readOr u m a = u := by
  induction m with
  | nil => rfl
  | cons e rest ih =>
    rw [Memory.readOr, if_neg (h e (by simp)), ih fun x hx => h x (by simp [hx])]

/-- A write leaves every other address alone. -/
theorem Memory.readOr_write_other (u u' : Byte) (m : Memory) (a b : Nat) (v : Byte) (h : b ≠ a) :
    Memory.readOr u' (Memory.write u m a v) b = Memory.readOr u' m b := by
  induction m with
  | nil => unfold Memory.write; split <;> simp [Memory.readOr, Ne.symm h]
  | cons e rest ih =>
    unfold Memory.write
    split
    · split <;> simp [Memory.readOr, Ne.symm h]
    · split
      · rename_i he
        split <;> simp [Memory.readOr, ← he, Ne.symm h]
      · simp [Memory.readOr, ih]

/-- A read after a write to the same address gives the value written. -/
theorem Memory.readOr_write_same (u : Byte) (m : Memory) (a : Nat) (v : Byte)
    (hm : Memory.rising m = true) : Memory.readOr u (Memory.write u m a v) a = v := by
  induction m with
  | nil => unfold Memory.write; split <;> simp_all [Memory.readOr]
  | cons e rest ih =>
    have hlt := Memory.rising_head_lt hm
    unfold Memory.write
    split
    · rename_i hae
      split
      · rename_i hv
        rw [hv]
        refine Memory.readOr_not_listed fun x hx => ?_
        rcases List.mem_cons.1 hx with rfl | hx
        · omega
        · have := hlt x hx; omega
      · simp [Memory.readOr]
    · split
      · split
        · rename_i hv
          rw [hv]
          refine Memory.readOr_not_listed fun x hx => ?_
          have := hlt x hx; omega
        · simp [Memory.readOr]
      · rename_i _ hne
        rw [Memory.readOr, if_neg (fun h => hne h.symm), ih (Memory.rising_tail hm)]

/-- What a write leaves listed was listed before, or is the byte written and not what its address
reads as when unlisted. -/
theorem Memory.mem_write {u : Byte} {m : Memory} {a : Nat} {v : Byte} {x : Host.Cell}
    (h : x ∈ Memory.write u m a v) : x ∈ m ∨ (x = (a, v) ∧ v ≠ u) := by
  induction m with
  | nil =>
    unfold Memory.write at h
    split at h <;> simp_all
  | cons e rest ih =>
    unfold Memory.write at h
    split at h
    · split at h
      · exact .inl h
      · rcases List.mem_cons.1 h with rfl | h
        · exact .inr ⟨rfl, by assumption⟩
        · exact .inl h
    · split at h
      · split at h
        · exact .inl (List.mem_cons_of_mem _ h)
        · rcases List.mem_cons.1 h with rfl | h
          · exact .inr ⟨rfl, by assumption⟩
          · exact .inl (List.mem_cons_of_mem _ h)
      · rcases List.mem_cons.1 h with rfl | h
        · exact .inl (by simp)
        · exact (ih h).imp (List.mem_cons_of_mem _) id

theorem Memory.rising_write (u : Byte) (m : Memory) (a : Nat) (v : Byte)
    (hm : Memory.rising m = true) : Memory.rising (Memory.write u m a v) = true := by
  induction m with
  | nil => unfold Memory.write; split <;> rfl
  | cons e rest ih =>
    have hlt := Memory.rising_head_lt hm
    unfold Memory.write
    split
    · rename_i hae
      split
      · exact hm
      · refine Memory.rising_cons hm fun x hx => ?_
        rcases List.mem_cons.1 hx with rfl | hx
        · exact hae
        · exact Nat.lt_trans hae (hlt x hx)
    · split
      · rename_i hae
        split
        · exact Memory.rising_tail hm
        · exact Memory.rising_cons (Memory.rising_tail hm) fun x hx => by
            have := hlt x hx; simp only; omega
      · refine Memory.rising_cons (ih (Memory.rising_tail hm)) fun x hx => ?_
        rcases Memory.mem_write hx with hx | ⟨rfl, -⟩
        · exact hlt x hx
        · simp only; omega

/-- A write keeps the canonical form. -/
theorem Memory.wf_write (unlisted : Nat → Byte) (m : Memory) (a : Nat) (v : Byte)
    (hm : Memory.wf unlisted m = true) :
    Memory.wf unlisted (Memory.write (unlisted a) m a v) = true := by
  simp only [Memory.wf, Bool.and_eq_true, List.all_eq_true, bne_iff_ne] at hm ⊢
  refine ⟨Memory.rising_write _ m a v hm.1, fun x hx => ?_⟩
  rcases Memory.mem_write hx with hx | ⟨rfl, hv⟩
  · exact hm.2 x hx
  · exact hv

theorem Memory.rising_of_wf {unlisted : Nat → Byte} {m : Memory}
    (hm : Memory.wf unlisted m = true) : Memory.rising m = true := by
  simp only [Memory.wf, Bool.and_eq_true] at hm
  exact hm.1

@[simp] theorem Memory.wf_nil (unlisted : Nat → Byte) : Memory.wf unlisted [] = true := rfl

end Sys2Proof

namespace Sys2Proof.Machine

/-- The reset memory is in canonical form. -/
theorem State.resetWith_ram_wf (c : Config) :
    Memory.wf c.ramInitByte (State.resetWith c).ram = true := rfl

/-- A byte of RAM after a write to RAM in canonical form. -/
theorem State.ramByte_setRamByte (s : State) (a b : Nat) (v : Byte)
    (hm : Memory.wf s.cfg.ramInitByte s.ram = true) :
    (s.setRamByte a v).ramByte b = if b = a then v else s.ramByte b := by
  split
  · rename_i h
    subst h
    exact Memory.readOr_write_same _ _ _ _ (Memory.rising_of_wf hm)
  · exact Memory.readOr_write_other _ _ _ _ _ _ ‹_›

theorem State.ramByte_setRamByte_other (s : State) (a b : Nat) (v : Byte) (h : b ≠ a) :
    (s.setRamByte a v).ramByte b = s.ramByte b :=
  Memory.readOr_write_other _ _ _ _ _ _ h

end Sys2Proof.Machine
end

