-- ==== Sys2Proof/Laws/PerInstr.lean ====
section
/-! SUPPORT. The family `EncodedFixedBits`: the word of every operation carries the fixed fields of
its row of spec/opcode_table.json, whatever its operands and whatever the parameters. -/

namespace Sys2Proof.Laws

/-- A word as a number, bit 0 the least significant. -/
def wordNumber : Presented → Nat
  | .bus w => w.toNat
  | .reg w => w.toNat
  | .evt w => w.toNat

/-- A fixed field of a row: its lowest bit, its width and its value. -/
structure FixedField where
  lo : Nat
  width : Nat
  value : Nat
  deriving DecidableEq, Repr

/-- The number has the field's value in the field's bits. -/
def FixedField.holds (f : FixedField) (n : Nat) : Prop := n / 2 ^ f.lo % 2 ^ f.width = f.value

/-- The fixed fields of an operation's row in spec/opcode_table.json: `w` of a `BUS` word, `w`, `r`
and, where the row fixes the chip, `c` of a `REG` word, `e` of an `EVT` word. -/
def rowFixed : Instr → List FixedField
  | .rdRomA _ => [⟨24, 1, 0⟩]
  | .rdRomB _ => [⟨24, 1, 0⟩]
  | .rdHimir _ => [⟨24, 1, 0⟩]
  | .wrRom _ _ => [⟨24, 1, 1⟩]
  | .rdChip _ _ => [⟨24, 1, 0⟩]
  | .wrChip _ _ _ => [⟨24, 1, 1⟩]
  | .rdRam _ => [⟨24, 1, 0⟩]
  | .wrRam _ _ => [⟨24, 1, 1⟩]
  | .rdNone _ => [⟨24, 1, 0⟩]
  | .wrNone _ _ => [⟨24, 1, 1⟩]
  | .rdPad => [⟨14, 1, 0⟩, ⟨8, 3, 0⟩, ⟨15, 1, 0⟩]
  | .rdPadKey => [⟨14, 1, 0⟩, ⟨8, 3, 0⟩, ⟨15, 1, 1⟩]
  | .rdPadd _ => [⟨14, 1, 0⟩, ⟨8, 3, 1⟩]
  | .rdPbd => [⟨14, 1, 0⟩, ⟨8, 3, 2⟩, ⟨15, 1, 0⟩]
  | .rdPbdSer => [⟨14, 1, 0⟩, ⟨8, 3, 2⟩, ⟨15, 1, 1⟩]
  | .rdPbdd _ => [⟨14, 1, 0⟩, ⟨8, 3, 3⟩]
  | .rdT4 _ => [⟨14, 1, 0⟩, ⟨8, 3, 4⟩]
  | .rdT5 _ => [⟨14, 1, 0⟩, ⟨8, 3, 5⟩]
  | .rdTcnt _ => [⟨14, 1, 0⟩, ⟨8, 3, 6⟩]
  | .rdTstat _ => [⟨14, 1, 0⟩, ⟨8, 3, 7⟩]
  | .wrPad _ _ => [⟨14, 1, 1⟩, ⟨8, 3, 0⟩]
  | .wrPadd _ _ => [⟨14, 1, 1⟩, ⟨8, 3, 1⟩]
  | .wrPbd _ => [⟨14, 1, 1⟩, ⟨8, 3, 2⟩, ⟨15, 1, 0⟩]
  | .wrPbdSer _ => [⟨14, 1, 1⟩, ⟨8, 3, 2⟩, ⟨15, 1, 1⟩]
  | .wrPbdd _ _ => [⟨14, 1, 1⟩, ⟨8, 3, 3⟩]
  | .wrTim1 _ _ => [⟨14, 1, 1⟩, ⟨8, 3, 4⟩]
  | .wrTim8 _ _ => [⟨14, 1, 1⟩, ⟨8, 3, 5⟩]
  | .wrTim64 _ _ => [⟨14, 1, 1⟩, ⟨8, 3, 6⟩]
  | .wrTim1024 _ _ => [⟨14, 1, 1⟩, ⟨8, 3, 7⟩]
  | .reset => [⟨32, 3, 0⟩]
  | .tick _ => [⟨32, 3, 1⟩]
  | .keyset _ => [⟨32, 3, 2⟩]
  | .modeset _ => [⟨32, 3, 3⟩]
  | .tapeset _ => [⟨32, 3, 4⟩]

theorem busWord_toNat (w : Bool) (a : Addr) (d : Byte) :
    (busWord w a d).toNat = w.toNat * 2 ^ 24 + a.toNat * 2 ^ 8 + d.toNat := by
  have := a.isLt; have := d.isLt
  rw [busWord, BitVec.toNat_append, BitVec.toNat_append, BitVec.toNat_ofBool, Nat.shiftLeft_eq,
    Nat.shiftLeft_eq, Nat.mul_comm, Nat.mul_comm w.toNat,
    ← Nat.two_pow_add_eq_or_of_lt a.isLt, ← Nat.two_pow_add_eq_or_of_lt d.isLt]
  omega

theorem regWord_toNat (c : Chip) (w : Bool) (o : BitVec 6) (d : Byte) :
    (regWord c w o d).toNat =
      (chipBit c).toNat * 2 ^ 15 + w.toNat * 2 ^ 14 + o.toNat * 2 ^ 8 + d.toNat := by
  have hw : w.toNat < 2 ^ 1 := by cases w <;> decide
  rw [regWord, BitVec.toNat_append, BitVec.toNat_append, BitVec.toNat_append, BitVec.toNat_ofBool,
    BitVec.toNat_ofBool, Nat.shiftLeft_eq, Nat.shiftLeft_eq, Nat.shiftLeft_eq,
    Nat.mul_comm (chipBit c).toNat, ← Nat.two_pow_add_eq_or_of_lt hw,
    Nat.mul_comm _ (2 ^ 6), ← Nat.two_pow_add_eq_or_of_lt o.isLt,
    Nat.mul_comm _ (2 ^ 8), ← Nat.two_pow_add_eq_or_of_lt d.isLt]
  omega

theorem evtWord_toNat (e : BitVec 3) (p : BitVec 32) :
    (evtWord e p).toNat = e.toNat * 2 ^ 32 + p.toNat := by
  rw [evtWord, BitVec.toNat_append, Nat.shiftLeft_eq, Nat.mul_comm,
    ← Nat.two_pow_add_eq_or_of_lt p.isLt]

theorem bus_w (w : Bool) (a : Addr) (d : Byte) :
    (busWord w a d).toNat / 2 ^ 24 % 2 ^ 1 = w.toNat := by
  have := a.isLt; have := d.isLt
  rw [busWord_toNat]
  cases w <;> simp only [Bool.toNat_false, Bool.toNat_true] <;> omega

theorem reg_c (c : Chip) (w : Bool) (o : BitVec 6) (d : Byte) :
    (regWord c w o d).toNat / 2 ^ 15 % 2 ^ 1 = (chipBit c).toNat := by
  have := o.isLt; have := d.isLt
  rw [regWord_toNat]
  cases c <;> cases w <;> simp only [chipBit, Bool.toNat_false, Bool.toNat_true] <;> omega

theorem reg_w (c : Chip) (w : Bool) (o : BitVec 6) (d : Byte) :
    (regWord c w o d).toNat / 2 ^ 14 % 2 ^ 1 = w.toNat := by
  have := o.isLt; have := d.isLt
  rw [regWord_toNat]
  cases c <;> cases w <;> simp only [chipBit, Bool.toNat_false, Bool.toNat_true] <;> omega

theorem reg_r (c : Chip) (w : Bool) (o : BitVec 6) (d : Byte) :
    (regWord c w o d).toNat / 2 ^ 8 % 2 ^ 3 = o.toNat % 8 := by
  have := o.isLt; have := d.isLt
  rw [regWord_toNat]
  cases c <;> cases w <;> simp only [chipBit, Bool.toNat_false, Bool.toNat_true] <;> omega

theorem evt_e (e : BitVec 3) (p : BitVec 32) :
    (evtWord e p).toNat / 2 ^ 32 % 2 ^ 3 = e.toNat := by
  have := e.isLt; have := p.isLt
  rw [evtWord_toNat]
  omega

/-- The encoded word of an operation carries its row's fixed fields. -/
def EncodedFixedBits.Statement (i : Instr) : Prop :=
  ∀ (p : Params), ∀ f ∈ rowFixed i, f.holds (wordNumber (encode p i))

namespace EncodedFixedBits

theorem rdRomA (a : Addr) : Statement (.rdRomA a) :=
  fun _ f hf => by
    obtain rfl := List.mem_singleton.1 hf
    exact bus_w _ _ _

theorem rdRomB (a : Addr) : Statement (.rdRomB a) :=
  fun _ f hf => by
    obtain rfl := List.mem_singleton.1 hf
    exact bus_w _ _ _

theorem rdHimir (a : Addr) : Statement (.rdHimir a) :=
  fun _ f hf => by
    obtain rfl := List.mem_singleton.1 hf
    exact bus_w _ _ _

theorem wrRom (a : Addr) (v : Byte) : Statement (.wrRom a v) :=
  fun _ f hf => by
    obtain rfl := List.mem_singleton.1 hf
    exact bus_w _ _ _

theorem rdChip (c : Chip) (o : BitVec 6) : Statement (.rdChip c o) :=
  fun _ f hf => by
    obtain rfl := List.mem_singleton.1 hf
    exact bus_w _ _ _

theorem wrChip (c : Chip) (o : BitVec 6) (v : Byte) : Statement (.wrChip c o v) :=
  fun _ f hf => by
    obtain rfl := List.mem_singleton.1 hf
    exact bus_w _ _ _

theorem rdRam (a : Addr) : Statement (.rdRam a) :=
  fun _ f hf => by
    obtain rfl := List.mem_singleton.1 hf
    exact bus_w _ _ _

theorem wrRam (a : Addr) (v : Byte) : Statement (.wrRam a v) :=
  fun _ f hf => by
    obtain rfl := List.mem_singleton.1 hf
    exact bus_w _ _ _

theorem rdNone (a : Addr) : Statement (.rdNone a) :=
  fun _ f hf => by
    obtain rfl := List.mem_singleton.1 hf
    exact bus_w _ _ _

theorem wrNone (a : Addr) (v : Byte) : Statement (.wrNone a v) :=
  fun _ f hf => by
    obtain rfl := List.mem_singleton.1 hf
    exact bus_w _ _ _

theorem rdPad : Statement .rdPad :=
  fun _ f hf => by
    simp only [rowFixed, List.mem_cons, List.not_mem_nil, or_false] at hf
    rcases hf with rfl | rfl | rfl
    · exact reg_w _ _ _ _
    · exact reg_r _ _ _ _
    · exact reg_c _ _ _ _

theorem rdPadKey : Statement .rdPadKey :=
  fun _ f hf => by
    simp only [rowFixed, List.mem_cons, List.not_mem_nil, or_false] at hf
    rcases hf with rfl | rfl | rfl
    · exact reg_w _ _ _ _
    · exact reg_r _ _ _ _
    · exact reg_c _ _ _ _

theorem rdPadd (c : Chip) : Statement (.rdPadd c) :=
  fun _ f hf => by
    simp only [rowFixed, List.mem_cons, List.not_mem_nil, or_false] at hf
    rcases hf with rfl | rfl
    · exact reg_w _ _ _ _
    · exact reg_r _ _ _ _

theorem rdPbd : Statement .rdPbd :=
  fun _ f hf => by
    simp only [rowFixed, List.mem_cons, List.not_mem_nil, or_false] at hf
    rcases hf with rfl | rfl | rfl
    · exact reg_w _ _ _ _
    · exact reg_r _ _ _ _
    · exact reg_c _ _ _ _

theorem rdPbdSer : Statement .rdPbdSer :=
  fun _ f hf => by
    simp only [rowFixed, List.mem_cons, List.not_mem_nil, or_false] at hf
    rcases hf with rfl | rfl | rfl
    · exact reg_w _ _ _ _
    · exact reg_r _ _ _ _
    · exact reg_c _ _ _ _

theorem rdPbdd (c : Chip) : Statement (.rdPbdd c) :=
  fun _ f hf => by
    simp only [rowFixed, List.mem_cons, List.not_mem_nil, or_false] at hf
    rcases hf with rfl | rfl
    · exact reg_w _ _ _ _
    · exact reg_r _ _ _ _

theorem rdT4 (c : Chip) : Statement (.rdT4 c) :=
  fun _ f hf => by
    simp only [rowFixed, List.mem_cons, List.not_mem_nil, or_false] at hf
    rcases hf with rfl | rfl
    · exact reg_w _ _ _ _
    · exact reg_r _ _ _ _

theorem rdT5 (c : Chip) : Statement (.rdT5 c) :=
  fun _ f hf => by
    simp only [rowFixed, List.mem_cons, List.not_mem_nil, or_false] at hf
    rcases hf with rfl | rfl
    · exact reg_w _ _ _ _
    · exact reg_r _ _ _ _

theorem rdTcnt (c : Chip) : Statement (.rdTcnt c) :=
  fun _ f hf => by
    simp only [rowFixed, List.mem_cons, List.not_mem_nil, or_false] at hf
    rcases hf with rfl | rfl
    · exact reg_w _ _ _ _
    · exact reg_r _ _ _ _

theorem rdTstat (c : Chip) : Statement (.rdTstat c) :=
  fun _ f hf => by
    simp only [rowFixed, List.mem_cons, List.not_mem_nil, or_false] at hf
    rcases hf with rfl | rfl
    · exact reg_w _ _ _ _
    · exact reg_r _ _ _ _

theorem wrPad (c : Chip) (v : Byte) : Statement (.wrPad c v) :=
  fun _ f hf => by
    simp only [rowFixed, List.mem_cons, List.not_mem_nil, or_false] at hf
    rcases hf with rfl | rfl
    · exact reg_w _ _ _ _
    · exact reg_r _ _ _ _

theorem wrPadd (c : Chip) (v : Byte) : Statement (.wrPadd c v) :=
  fun _ f hf => by
    simp only [rowFixed, List.mem_cons, List.not_mem_nil, or_false] at hf
    rcases hf with rfl | rfl
    · exact reg_w _ _ _ _
    · exact reg_r _ _ _ _

theorem wrPbd (v : Byte) : Statement (.wrPbd v) :=
  fun _ f hf => by
    simp only [rowFixed, List.mem_cons, List.not_mem_nil, or_false] at hf
    rcases hf with rfl | rfl | rfl
    · exact reg_w _ _ _ _
    · exact reg_r _ _ _ _
    · exact reg_c _ _ _ _

theorem wrPbdSer (v : Byte) : Statement (.wrPbdSer v) :=
  fun _ f hf => by
    simp only [rowFixed, List.mem_cons, List.not_mem_nil, or_false] at hf
    rcases hf with rfl | rfl | rfl
    · exact reg_w _ _ _ _
    · exact reg_r _ _ _ _
    · exact reg_c _ _ _ _

theorem wrPbdd (c : Chip) (v : Byte) : Statement (.wrPbdd c v) :=
  fun _ f hf => by
    simp only [rowFixed, List.mem_cons, List.not_mem_nil, or_false] at hf
    rcases hf with rfl | rfl
    · exact reg_w _ _ _ _
    · exact reg_r _ _ _ _

theorem wrTim1 (c : Chip) (v : Byte) : Statement (.wrTim1 c v) :=
  fun _ f hf => by
    simp only [rowFixed, List.mem_cons, List.not_mem_nil, or_false] at hf
    rcases hf with rfl | rfl
    · exact reg_w _ _ _ _
    · exact reg_r _ _ _ _

theorem wrTim8 (c : Chip) (v : Byte) : Statement (.wrTim8 c v) :=
  fun _ f hf => by
    simp only [rowFixed, List.mem_cons, List.not_mem_nil, or_false] at hf
    rcases hf with rfl | rfl
    · exact reg_w _ _ _ _
    · exact reg_r _ _ _ _

theorem wrTim64 (c : Chip) (v : Byte) : Statement (.wrTim64 c v) :=
  fun _ f hf => by
    simp only [rowFixed, List.mem_cons, List.not_mem_nil, or_false] at hf
    rcases hf with rfl | rfl
    · exact reg_w _ _ _ _
    · exact reg_r _ _ _ _

theorem wrTim1024 (c : Chip) (v : Byte) : Statement (.wrTim1024 c v) :=
  fun _ f hf => by
    simp only [rowFixed, List.mem_cons, List.not_mem_nil, or_false] at hf
    rcases hf with rfl | rfl
    · exact reg_w _ _ _ _
    · exact reg_r _ _ _ _

theorem reset : Statement .reset :=
  fun _ f hf => by
    obtain rfl := List.mem_singleton.1 hf
    exact evt_e _ _

theorem tick (n : Nat) : Statement (.tick n) :=
  fun _ f hf => by
    obtain rfl := List.mem_singleton.1 hf
    exact evt_e _ _

theorem keyset (k : Byte) : Statement (.keyset k) :=
  fun _ f hf => by
    obtain rfl := List.mem_singleton.1 hf
    exact evt_e _ _

theorem modeset (m : Bool) : Statement (.modeset m) :=
  fun _ f hf => by
    obtain rfl := List.mem_singleton.1 hf
    exact evt_e _ _

theorem tapeset (t : Bool) : Statement (.tapeset t) :=
  fun _ f hf => by
    obtain rfl := List.mem_singleton.1 hf
    exact evt_e _ _

end EncodedFixedBits

end Sys2Proof.Laws
end

