-- ==== Sys2Proof/Laws/Run.lean ====
section
/-! SUPPORT. Runs of operations (spec/00_scope.md rule R9), one operation at a time. -/

namespace Sys2Proof.Machine

@[simp] theorem runOps_nil (s : State) : runOps [] s = .next s := rfl

theorem runOps_cons {i : Instr} {s t : State} (rest : List Instr) (h : exec i s = .next t) :
    runOps (i :: rest) s = runOps rest t := by simp only [runOps, h]

/-- A property that the operations of a run keep holds after the run, and the run gives a next
state. -/
theorem runOps_induction {Inv : State → Prop} {ops : List Instr} {s : State} (h0 : Inv s)
    (keep : ∀ i ∈ ops, ∀ s, Inv s → ∃ t, exec i s = .next t ∧ Inv t) :
    ∃ t, runOps ops s = .next t ∧ Inv t := by
  induction ops generalizing s with
  | nil => exact ⟨s, rfl, h0⟩
  | cons i rest ih =>
    obtain ⟨t, ht, h1⟩ := keep i (by simp) s h0
    obtain ⟨u, hu, h2⟩ := ih h1 fun j hj => keep j (by simp [hj])
    exact ⟨u, by rw [runOps_cons rest ht, hu], h2⟩

end Sys2Proof.Machine
end

