-- ==== Sys2Proof/Laws/Serial.lean ====
section
/-! SUPPORT. What the shift register does, said once (spec/44_serial_shift.md rules R206, R208 and
R210). -/

namespace Sys2Proof.Machine

/-- Everything `emit` can do. -/
theorem State.emit_cases (s : State) (b : Byte) :
    (s.tapew = false ∧ s.emit b = { s with txcon := s.txcon ++ [b] }) ∨
    (s.tapew = true ∧ b ≠ 0 ∧ s.emit b = { s with txtape := s.txtape ++ [b] }) ∨
    (s.tapew = true ∧ b = 0 ∧ s.emit b = s) := by
  cases ht : s.tapew with
  | false => exact .inl ⟨rfl, by simp [State.emit, ht]⟩
  | true =>
    by_cases hb : b = 0
    · exact .inr (.inr ⟨rfl, hb, by rw [State.emit, if_pos ht, if_pos hb]⟩)
    · exact .inr (.inl ⟨rfl, hb, by rw [State.emit, if_pos ht, if_neg hb]; simp [ht]⟩)

/-- Everything a write with data bit `b` can do to the shift register: start, nothing, consume,
emit. -/
theorem State.serialWrite_cases (s : State) (b : Bool) :
    (s.ser.active = false ∧ b = false ∧ s.serialWrite b = s.setSer Serial.started) ∨
    (s.ser.active = false ∧ b = true ∧ s.serialWrite b = s) ∨
    (s.ser.active = true ∧ s.ser.bitready = false ∧ s.serialWrite b = s) ∨
    (s.ser.active = true ∧ s.ser.bitready = true ∧ s.ser.bitcnt ≠ 8 ∧
      s.serialWrite b = s.setSer (s.ser.consumed b)) ∨
    (s.ser.active = true ∧ s.ser.bitready = true ∧ s.ser.bitcnt = 8 ∧
      s.serialWrite b = (s.emit s.ser.acc).setSer { s.ser with active := false }) := by
  cases ha : s.ser.active with
  | false => cases b <;> simp [State.serialWrite, ha]
  | true =>
    cases hr : s.ser.bitready with
    | false => simp [State.serialWrite, Serial.qualifies, ha, hr]
    | true =>
      by_cases hc : s.ser.bitcnt = 8 <;> simp [State.serialWrite, Serial.qualifies, ha, hr, hc]

@[simp] theorem State.emit_cfg (s : State) (b : Byte) : (s.emit b).cfg = s.cfg := by
  rcases s.emit_cases b with ⟨-, e⟩ | ⟨-, -, e⟩ | ⟨-, -, e⟩ <;> rw [e]

@[simp] theorem State.emit_app (s : State) (b : Byte) : (s.emit b).app = s.app := by
  rcases s.emit_cases b with ⟨-, e⟩ | ⟨-, -, e⟩ | ⟨-, -, e⟩ <;> rw [e]

@[simp] theorem State.emit_sys (s : State) (b : Byte) : (s.emit b).sys = s.sys := by
  rcases s.emit_cases b with ⟨-, e⟩ | ⟨-, -, e⟩ | ⟨-, -, e⟩ <;> rw [e]

@[simp] theorem State.emit_ser (s : State) (b : Byte) : (s.emit b).ser = s.ser := by
  rcases s.emit_cases b with ⟨-, e⟩ | ⟨-, -, e⟩ | ⟨-, -, e⟩ <;> rw [e]

@[simp] theorem State.emit_ram (s : State) (b : Byte) : (s.emit b).ram = s.ram := by
  rcases s.emit_cases b with ⟨-, e⟩ | ⟨-, -, e⟩ | ⟨-, -, e⟩ <;> rw [e]

@[simp] theorem State.emit_key (s : State) (b : Byte) : (s.emit b).key = s.key := by
  rcases s.emit_cases b with ⟨-, e⟩ | ⟨-, -, e⟩ | ⟨-, -, e⟩ <;> rw [e]

@[simp] theorem State.emit_sermode (s : State) (b : Byte) : (s.emit b).sermode = s.sermode := by
  rcases s.emit_cases b with ⟨-, e⟩ | ⟨-, -, e⟩ | ⟨-, -, e⟩ <;> rw [e]

@[simp] theorem State.emit_tapew (s : State) (b : Byte) : (s.emit b).tapew = s.tapew := by
  rcases s.emit_cases b with ⟨-, e⟩ | ⟨-, -, e⟩ | ⟨-, -, e⟩ <;> rw [e]

@[simp] theorem State.emit_pending (s : State) (b : Byte) : (s.emit b).pending = s.pending := by
  rcases s.emit_cases b with ⟨-, e⟩ | ⟨-, -, e⟩ | ⟨-, -, e⟩ <;> rw [e]

@[simp] theorem State.emit_reads (s : State) (b : Byte) : (s.emit b).reads = s.reads := by
  rcases s.emit_cases b with ⟨-, e⟩ | ⟨-, -, e⟩ | ⟨-, -, e⟩ <;> rw [e]

@[simp] theorem State.emit_draws (s : State) (b : Byte) : (s.emit b).draws = s.draws := by
  rcases s.emit_cases b with ⟨-, e⟩ | ⟨-, -, e⟩ | ⟨-, -, e⟩ <;> rw [e]

@[simp] theorem State.serialWrite_cfg (s : State) (b : Bool) : (s.serialWrite b).cfg = s.cfg := by
  rcases s.serialWrite_cases b with ⟨-, -, e⟩ | ⟨-, -, e⟩ | ⟨-, -, e⟩ | ⟨-, -, -, e⟩ | ⟨-, -, -, e⟩ <;>
    rw [e] <;> simp

@[simp] theorem State.serialWrite_app (s : State) (b : Bool) : (s.serialWrite b).app = s.app := by
  rcases s.serialWrite_cases b with ⟨-, -, e⟩ | ⟨-, -, e⟩ | ⟨-, -, e⟩ | ⟨-, -, -, e⟩ | ⟨-, -, -, e⟩ <;>
    rw [e] <;> simp

@[simp] theorem State.serialWrite_sys (s : State) (b : Bool) : (s.serialWrite b).sys = s.sys := by
  rcases s.serialWrite_cases b with ⟨-, -, e⟩ | ⟨-, -, e⟩ | ⟨-, -, e⟩ | ⟨-, -, -, e⟩ | ⟨-, -, -, e⟩ <;>
    rw [e] <;> simp

@[simp] theorem State.serialWrite_ram (s : State) (b : Bool) : (s.serialWrite b).ram = s.ram := by
  rcases s.serialWrite_cases b with ⟨-, -, e⟩ | ⟨-, -, e⟩ | ⟨-, -, e⟩ | ⟨-, -, -, e⟩ | ⟨-, -, -, e⟩ <;>
    rw [e] <;> simp

@[simp] theorem State.serialWrite_key (s : State) (b : Bool) : (s.serialWrite b).key = s.key := by
  rcases s.serialWrite_cases b with ⟨-, -, e⟩ | ⟨-, -, e⟩ | ⟨-, -, e⟩ | ⟨-, -, -, e⟩ | ⟨-, -, -, e⟩ <;>
    rw [e] <;> simp

@[simp] theorem State.serialWrite_sermode (s : State) (b : Bool) : (s.serialWrite b).sermode = s.sermode := by
  rcases s.serialWrite_cases b with ⟨-, -, e⟩ | ⟨-, -, e⟩ | ⟨-, -, e⟩ | ⟨-, -, -, e⟩ | ⟨-, -, -, e⟩ <;>
    rw [e] <;> simp

@[simp] theorem State.serialWrite_tapew (s : State) (b : Bool) : (s.serialWrite b).tapew = s.tapew := by
  rcases s.serialWrite_cases b with ⟨-, -, e⟩ | ⟨-, -, e⟩ | ⟨-, -, e⟩ | ⟨-, -, -, e⟩ | ⟨-, -, -, e⟩ <;>
    rw [e] <;> simp

@[simp] theorem State.serialWrite_pending (s : State) (b : Bool) : (s.serialWrite b).pending = s.pending := by
  rcases s.serialWrite_cases b with ⟨-, -, e⟩ | ⟨-, -, e⟩ | ⟨-, -, e⟩ | ⟨-, -, -, e⟩ | ⟨-, -, -, e⟩ <;>
    rw [e] <;> simp

@[simp] theorem State.serialWrite_reads (s : State) (b : Bool) : (s.serialWrite b).reads = s.reads := by
  rcases s.serialWrite_cases b with ⟨-, -, e⟩ | ⟨-, -, e⟩ | ⟨-, -, e⟩ | ⟨-, -, -, e⟩ | ⟨-, -, -, e⟩ <;>
    rw [e] <;> simp

@[simp] theorem State.serialWrite_draws (s : State) (b : Bool) : (s.serialWrite b).draws = s.draws := by
  rcases s.serialWrite_cases b with ⟨-, -, e⟩ | ⟨-, -, e⟩ | ⟨-, -, e⟩ | ⟨-, -, -, e⟩ | ⟨-, -, -, e⟩ <;>
    rw [e] <;> simp

/-- Consuming the bit `b` puts it at bit 7 and moves every other bit one place right. -/
theorem Serial.consumed_acc_getLsbD (x : Serial) (b : Bool) (i : Nat) (hi : i < 8) :
    (x.consumed b).acc.getLsbD i = if i = 7 then b else x.acc.getLsbD (i + 1) := by
  have : i = 0 ∨ i = 1 ∨ i = 2 ∨ i = 3 ∨ i = 4 ∨ i = 5 ∨ i = 6 ∨ i = 7 := by omega
  rcases this with rfl | rfl | rfl | rfl | rfl | rfl | rfl | rfl <;>
    simp [Serial.consumed]

end Sys2Proof.Machine
end

