-- ==== Sys2Proof/Laws/Timer.lean ====
section
/-! SUPPORT. What the timer procedures do, said once (spec/42_timer.md rules R160 and R161). -/

namespace Sys2Proof.Machine

/-- Everything `timerUpdate` can do. -/
theorem timerUpdate_cases (n : Nat) (t : Timer) :
    ((t.prescale = 0 ∨ t.timeout = true) ∧ timerUpdate n t = t) ∨
    (t.prescale ≠ 0 ∧ t.timeout = false ∧ t.rem + n ≤ t.prescale ∧
      timerUpdate n t = { t with rem := t.rem + n }) ∨
    (t.prescale ≠ 0 ∧ t.timeout = false ∧ t.prescale < t.rem + n ∧
      t.count.toNat ≤ (t.rem + n) / t.prescale ∧
      timerUpdate n t = { t with rem := (t.rem + n) % t.prescale, count := 0, timeout := true }) ∨
    (t.prescale ≠ 0 ∧ t.timeout = false ∧ t.prescale < t.rem + n ∧
      (t.rem + n) / t.prescale < t.count.toNat ∧
      timerUpdate n t =
        { t with
          rem := (t.rem + n) % t.prescale
          count := BitVec.ofNat 8 (t.count.toNat - (t.rem + n) / t.prescale) }) := by
  by_cases hs : t.prescale = 0 ∨ t.timeout = true
  · exact .inl ⟨hs, by rcases hs with h | h <;> simp [timerUpdate, Timer.stopped, h]⟩
  · have hp : t.prescale ≠ 0 := fun h => hs (.inl h)
    have ht : t.timeout = false := by
      cases h : t.timeout with
      | false => rfl
      | true => exact absurd (.inr h) hs
    by_cases he : t.prescale < t.rem + n
    · by_cases hl : t.count.toNat ≤ (t.rem + n) / t.prescale
      · exact .inr (.inr (.inl ⟨hp, ht, he, hl, by
          simp [timerUpdate, Timer.stopped, exceeds, latches, hp, ht, he, hl]⟩))
      · exact .inr (.inr (.inr ⟨hp, ht, he, Nat.lt_of_not_le hl, by
          simp [timerUpdate, Timer.stopped, exceeds, latches, hp, ht, he, hl]⟩))
    · exact .inr (.inl ⟨hp, ht, Nat.le_of_not_lt he, by
        simp [timerUpdate, Timer.stopped, exceeds, hp, ht, he]⟩)

/-- The count after a decrement that does not reach 0. -/
theorem timerUpdate_count_toNat {count : Byte} {whole : Nat} (h : whole < count.toNat) :
    (BitVec.ofNat 8 (count.toNat - whole)).toNat = count.toNat - whole := by
  have := count.isLt
  rw [BitVec.toNat_ofNat, Nat.mod_eq_of_lt (by omega)]

/-- A freshly armed timer meets the timer invariants. -/
theorem timerReset_inv {p : Nat} (v : Byte) (hp : p ∈ [1, 8, 64, 1024]) : (timerReset p v).Inv := by
  simp only [List.mem_cons, List.not_mem_nil, or_false] at hp
  rcases hp with rfl | rfl | rfl | rfl <;> simp [timerReset, Timer.Inv]

/-- Ticks keep the timer invariants. -/
theorem timerUpdate_inv (n : Nat) {t : Timer} (h : t.Inv) : (timerUpdate n t).Inv := by
  obtain ⟨hp, hto, h0, hr, hc⟩ := h
  rcases timerUpdate_cases n t with ⟨-, e⟩ | ⟨hp0, ht, hle, e⟩ | ⟨hp0, ht, hlt, hl, e⟩ |
    ⟨hp0, ht, hlt, hl, e⟩ <;> rw [e]
  · exact ⟨hp, hto, h0, hr, hc⟩
  · exact ⟨hp, by simp [ht], fun h => absurd h hp0, fun _ => hle, hc⟩
  · exact ⟨hp, fun _ => ⟨rfl, Nat.mod_lt _ (Nat.pos_of_ne_zero hp0)⟩, fun h => absurd h hp0,
      by simp, by simp⟩
  · refine ⟨hp, by simp [ht], fun h => absurd h hp0, fun _ => ?_, ?_⟩
    · exact Nat.le_of_lt (Nat.mod_lt _ (Nat.pos_of_ne_zero hp0))
    · simp only [timerUpdate_count_toNat hl]
      exact Nat.le_trans (Nat.sub_le _ _) hc

/-- A timer whose timeout is latched takes no ticks. -/
theorem timerUpdate_of_timeout (n : Nat) {t : Timer} (h : t.timeout = true) :
    timerUpdate n t = t := by simp [timerUpdate, Timer.stopped, h]

end Sys2Proof.Machine
end

