-- ==== Sys2Proof/Machine/Trace.lean ====
section
/-! DEFINITION. The trace notation and the pseudo-operations (spec/30_encoding.md rules R112 and
R113): shorthand for words, with no meaning of its own. -/

namespace Sys2Proof

/-- One line of a trace (rule R112). -/
inductive TraceLine where
  /-- `R $hhhh` -/
  | read (a : Addr)
  /-- `W $hhhh, #$hh` -/
  | write (a : Addr) (v : Byte)
  /-- `R c+o` -/
  | readChip (c : Chip) (o : BitVec 6)
  /-- `W c+o, #$hh` -/
  | writeChip (c : Chip) (o : BitVec 6) (v : Byte)
  /-- `TICK n` -/
  | tick (n : BitVec 32)
  /-- `KEYSET #$hh` -/
  | keyset (k : Byte)
  /-- `MODESET 0|1` -/
  | modeset (m : Bool)
  /-- `TAPESET 0|1` -/
  | tapeset (t : Bool)
  /-- `RESET` -/
  | reset
  deriving DecidableEq, Repr

/-- The word a line presents (rule R112); `c+o` is the absolute address `c_BASE + o`. -/
def TraceLine.word (p : Params) : TraceLine → Presented
  | .read a => .bus (busWord false a 0)
  | .write a v => .bus (busWord true a v)
  | .readChip c o => .bus (busWord false (BitVec.ofNat 16 (p.chipBase c + o.toNat)) 0)
  | .writeChip c o v => .bus (busWord true (BitVec.ofNat 16 (p.chipBase c + o.toNat)) v)
  | .tick n => .evt (evtWord 1 n)
  | .keyset k => .evt (evtWord 2 (k.setWidth 32))
  | .modeset m => .evt (evtWord 3 ((BitVec.ofBool m).setWidth 32))
  | .tapeset t => .evt (evtWord 4 ((BitVec.ofBool t).setWidth 32))
  | .reset => .evt (evtWord 0 0)

/-- The words a trace presents, in order of arrival. -/
def traceWords (p : Params) (lines : List TraceLine) : List Presented :=
  lines.map (TraceLine.word p)

/-- The names of the registers a `c.NAME` line reads (rule R112). -/
inductive ReadName where
  | pad
  | padd
  | pbd
  | pbdd
  | tcnt
  | tstat
  deriving DecidableEq, Repr

def ReadName.offset : ReadName → BitVec 6
  | .pad => 0
  | .padd => 1
  | .pbd => 2
  | .pbdd => 3
  | .tcnt => 6
  | .tstat => 7

/-- The names of the registers a `c.NAME` line writes (rule R112). -/
inductive WriteName where
  | pad
  | padd
  | pbd
  | pbdd
  | tim1
  | tim8
  | tim64
  | tim1024
  deriving DecidableEq, Repr

def WriteName.offset : WriteName → BitVec 6
  | .pad => 0
  | .padd => 1
  | .pbd => 2
  | .pbdd => 3
  | .tim1 => 4
  | .tim8 => 5
  | .tim64 => 6
  | .tim1024 => 7

/-- `R c.NAME`. -/
def readNamed (c : Chip) (n : ReadName) : TraceLine := .readChip c n.offset

/-- `W c.NAME, #$hh`. -/
def writeNamed (c : Chip) (n : WriteName) (v : Byte) : TraceLine := .writeChip c n.offset v

/-- `KEYCLR` (rule R113). -/
def keyClr (p : Params) : List TraceLine := [.keyset p.keyNone]

/-- `ARM c, p, s` (rule R113); the four divisors are the four timer registers. -/
def armTimer1 (c : Chip) (s : Byte) : List TraceLine := [.writeChip c 4 s]

def armTimer8 (c : Chip) (s : Byte) : List TraceLine := [.writeChip c 5 s]

def armTimer64 (c : Chip) (s : Byte) : List TraceLine := [.writeChip c 6 s]

def armTimer1024 (c : Chip) (s : Byte) : List TraceLine := [.writeChip c 7 s]

/-- `SELROW n` (rule R113): selects scan row `n` and keeps the serial line at 1. -/
def selRow (n : BitVec 4) : List TraceLine := [.writeChip .sys 2 (n.setWidth 8 * 2 + 1)]

/-- `TXSTART` (rule R113). -/
def txStart : List TraceLine := [.writeChip .sys 2 0x00]

/-- `TXBIT b` (rule R113). -/
def txBit (b : Bool) : List TraceLine :=
  [.readChip .sys 2, .writeChip .sys 2 ((BitVec.ofBool b).setWidth 8)]

/-- `TXSTOP` (rule R113). -/
def txStop : List TraceLine := [.readChip .sys 2, .writeChip .sys 2 0x01]

/-- `TXBYTE v` (rule R113): least significant bit first. -/
def txByte (v : Byte) : List TraceLine :=
  txStart ++ txBit (v.getLsbD 0) ++ txBit (v.getLsbD 1) ++ txBit (v.getLsbD 2) ++
    txBit (v.getLsbD 3) ++ txBit (v.getLsbD 4) ++ txBit (v.getLsbD 5) ++ txBit (v.getLsbD 6) ++
    txBit (v.getLsbD 7) ++ txStop

end Sys2Proof
end

