-- ==== Sys2Proof/Tests/Slice0.lean ====
section
/-! SUPPORT. Tests. Expected values are those of spec/95_test_vectors.md (vector names in the
comments) or worked by hand from the rule named. `BUS` words are under the suggested map (log 2). -/

namespace Sys2Proof.Tests

open Sys2Proof Sys2Proof.Machine

/-- One part of the next state, if there is one. -/
def after {α : Type} (part : State → α) (o : Host.Outcome State Fault Refusal) : Option α :=
  match o with
  | .next t => some (part t)
  | .fault _ => none
  | .refused _ => none

/-- Parameters with images that tell their bytes apart, RAM everywhere, and both `FNWIN` windows. -/
def wideParams : Params :=
  { Params.suggested with
    ramSize := .full
    romA := [(0, 0x11), (0x3FA, 0x12), (1023, 0x13)]
    romB := [(0, 0x21), (0x3FA, 0x22), (0x3FC, 0x23), (1023, 0x24)]
    fnApp := some ⟨0x1780, 8⟩
    fnSys := some ⟨0x1790, 63⟩ }

def wide : Config where
  toParams := wideParams
  valid_eq := by decide

/-- The same with the mirror on `ROM_A`. -/
def wideA : Config where
  toParams := { wideParams with himirRom := .a }
  valid_eq := by decide

/-- The reset state with the serial shift register `x`. -/
def withSer (x : Serial) : State := State.reset.setSer x

/-- The reset state with the timer `t` on chip `c`. -/
def withTimer (c : Chip) (t : Timer) : State := State.reset.setTimer c t

/-! WellFormed: one ill-formed term for each check. -/

theorem test_wf_refuses_rdRomA_outside : Instr.wf Params.suggested (.rdRomA 0x1C00) = false := by
  decide

theorem test_wf_refuses_rdRomB_outside : Instr.wf Params.suggested (.rdRomB 0x1BFF) = false := by
  decide

theorem test_wf_refuses_rdHimir_outside : Instr.wf Params.suggested (.rdHimir 0xFFF9) = false := by
  decide

theorem test_wf_refuses_wrRom_outside : Instr.wf Params.suggested (.wrRom 0x2000 1) = false := by
  decide

theorem test_wf_refuses_rdRam_outside : Instr.wf Params.suggested (.rdRam 0x0400) = false := by
  decide

theorem test_wf_refuses_wrRam_under_window : Instr.wf wideParams (.wrRam 0x1700 1) = false := by
  decide

theorem test_wf_refuses_rdNone_in_ram : Instr.wf Params.suggested (.rdNone 0x03FF) = false := by
  decide

theorem test_wf_refuses_wrNone_in_chip : Instr.wf Params.suggested (.wrNone 0x1740 1) = false := by
  decide

theorem test_wf_refuses_tick_too_long : Instr.wf Params.suggested (.tick (2 ^ 32)) = false := by
  decide

/-! Parameters that break a constraint of rule R5 are refused (rule R262). -/

theorem test_params_refuse_overlap :
    Params.valid { Params.suggested with sysBase := 0x1720 } = false := by decide

theorem test_params_refuse_equal_patterns :
    Params.valid { Params.suggested with
      keypat := #v[0xBF, 0xBF, 0xEF, 0xF7, 0xFB, 0xFD, 0xFE] } = false := by decide

/-! Decoding: for every constructor a word written out from rules R91 to R97. -/

theorem test_decode_bus :
    decodeTableWord 32 0x0180000 = some (.rdRomA 0x1800) ∧
    decodeTableWord 32 0x01C0000 = some (.rdRomB 0x1C00) ∧
    decodeTableWord 32 0x0FFFC00 = some (.rdHimir 0xFFFC) ∧
    decodeTableWord 32 0x11C00FF = some (.wrRom 0x1C00 0xFF) ∧
    decodeTableWord 32 0x0174100 = some (.rdChip .sys 1) ∧
    decodeTableWord 32 0x117050A = some (.wrChip .app 5 0x0A) ∧
    decodeTableWord 32 0x0001000 = some (.rdRam 0x0010) ∧
    decodeTableWord 32 0x103FF12 = some (.wrRam 0x03FF 0x12) ∧
    decodeTableWord 32 0x0040000 = some (.rdNone 0x0400) ∧
    decodeTableWord 32 0x1800055 = some (.wrNone 0x8000 0x55) := by decide

theorem test_decode_reg_reads :
    decodeTableWord 16 0x0000 = some .rdPad ∧
    decodeTableWord 16 0x8000 = some .rdPadKey ∧
    decodeTableWord 16 0x8100 = some (.rdPadd .sys) ∧
    decodeTableWord 16 0x0200 = some .rdPbd ∧
    decodeTableWord 16 0x8200 = some .rdPbdSer ∧
    decodeTableWord 16 0x8300 = some (.rdPbdd .sys) ∧
    decodeTableWord 16 0x0400 = some (.rdT4 .app) ∧
    decodeTableWord 16 0x8500 = some (.rdT5 .sys) ∧
    decodeTableWord 16 0x0E00 = some (.rdTcnt .app) ∧
    decodeTableWord 16 0x8700 = some (.rdTstat .sys) := by decide

theorem test_decode_reg_writes :
    decodeTableWord 16 0x405A = some (.wrPad .app 0x5A) ∧
    decodeTableWord 16 0xC97F = some (.wrPadd .sys 0x7F) ∧
    decodeTableWord 16 0x42C3 = some (.wrPbd 0xC3) ∧
    decodeTableWord 16 0xC201 = some (.wrPbdSer 0x01) ∧
    decodeTableWord 16 0xC3BF = some (.wrPbdd .sys 0xBF) ∧
    decodeTableWord 16 0x4404 = some (.wrTim1 .app 0x04) ∧
    decodeTableWord 16 0x450A = some (.wrTim8 .app 0x0A) ∧
    decodeTableWord 16 0xC601 = some (.wrTim64 .sys 0x01) ∧
    decodeTableWord 16 0x4702 = some (.wrTim1024 .app 0x02) := by decide

theorem test_decode_evt :
    decodeTableWord 40 0x000000000 = some .reset ∧
    decodeTableWord 40 0x100000050 = some (.tick 80) ∧
    decodeTableWord 40 0x20000000A = some (.keyset 0x0A) ∧
    decodeTableWord 40 0x300000001 = some (.modeset true) ∧
    decodeTableWord 40 0x400000000 = some (.tapeset false) := by decide

/-- Z4: no operation. -/
theorem test_decode_evt_invalid :
    decodeTableWord 40 0x500000000 = none ∧ decodeTableWord 40 0x600000000 = none ∧
    decodeTableWord 40 0x7FFFFFFFF = none := by decide

/-- The narrower windows hand over the address less their base (rule R68). -/
theorem test_decode_fn_windows :
    decode wideParams (.bus 0x0178700) = .ok (.rdChip .app 7) ∧
    decode wideParams (.bus 0x117CE55) = .ok (.wrChip .sys 62 0x55) := by
  refine ⟨?_, ?_⟩ <;> rfl

/-- `SELROW 4` writes 0x09 and `TXBYTE $41` begins with its bit 0 (rule R113). -/
theorem test_trace_words :
    traceWords Params.suggested (selRow 4) = [.bus 0x1174209] ∧
    traceWords Params.suggested ((txByte 0x41).take 3) =
      [.bus 0x1174200, .bus 0x0174200, .bus 0x1174201] := by decide

/-! Stepping. -/

theorem test_step_runs_the_word :
    after (fun t => t.app.pad) (step (State.reset.withFetchWord 16 0x405A)) = some 0x5A := by decide

theorem test_step_refuses_invalid_event :
    (match step (State.reset.withFetchWord 40 0x500000000) with
      | .refused why => decide (why = .undecodable (.eventSelect 5))
      | .next _ => false
      | .fault _ => false) = true := by decide

/-! One step of each operation. -/

/-- M5. -/
theorem test_rdRomA : after State.reads (exec (.rdRomA 0x1BFF) (State.resetWith wide)) =
    some [0x13] := by decide

/-- M5. -/
theorem test_rdRomB : after State.reads (exec (.rdRomB 0x1C00) (State.resetWith wide)) =
    some [0x21] := by decide

/-- M6. -/
theorem test_rdHimir : after State.reads (exec (.rdHimir 0xFFFC) (State.resetWith wide)) =
    some [0x23] := by decide

/-- M9: the write does not reach the RAM below the window. -/
theorem test_wrRom : after State.ram (exec (.wrRom 0x1800 0x77) (State.resetWith wide)) =
    some [] := by decide

/-- G7: an alias of offset 0. -/
theorem test_rdChip : after State.reads
    (exec (.rdChip .app 56) (State.reset.setPad .app 0x11)) = some [0x11] := by decide

/-- G8: an alias of offset 1. -/
theorem test_wrChip : after (fun t => (t.sys.padd, t.app.padd))
    (exec (.wrChip .sys 9 0x7F) State.reset) = some (0x7F, 0x00) := by decide

/-- M1. -/
theorem test_rdRam : after State.reads (exec (.rdRam 0x0010)
    (State.reset.setRamByte 0x0010 0xAB)) = some [0xAB] := by decide

/-- M2: the last byte of RAM. -/
theorem test_wrRam : after State.ram (exec (.wrRam 0x03FF 0x12) State.reset) =
    some [(0x03FF, 0x12)] := by decide

/-- M4. -/
theorem test_rdNone : after State.reads (exec (.rdNone 0x8000) State.reset) = some [0x00] := by
  decide

/-- M4. -/
theorem test_wrNone : after State.ram (exec (.wrNone 0x8000 0x55) State.reset) = some [] := by
  decide

/-- G1. -/
theorem test_rdPad : after State.reads (exec .rdPad (State.reset.setPad .app 0x5A)) =
    some [0x5A] := by decide

/-- K1: key 3 on row 0 is pattern 3, not the byte stored. -/
theorem test_rdPadKey : after State.reads
    (exec .rdPadKey { State.reset.setPad .sys 0x99 with key := 3 }) = some [0xF7] := by decide

/-- K7: bits 7:5 and bit 0 of the byte stored do not select; K2: key 10 on row 1. -/
theorem test_rdPadKey_row : after State.reads
    (exec .rdPadKey { State.reset.setPbd .sys 0xE3 with key := 10 }) = some [0xF7] := by decide

/-- G2. -/
theorem test_rdPadd : after State.reads (exec (.rdPadd .app) (State.reset.setPadd .app 0x0F)) =
    some [0x0F] := by decide

/-- G3. -/
theorem test_rdPbd : after State.reads (exec .rdPbd (State.reset.setPbd .app 0xC3)) =
    some [0xC3] := by decide

/-- E1: the byte stored, and the latch set. -/
theorem test_rdPbdSer : after (fun t => (t.reads, t.ser.bitready))
    (exec .rdPbdSer (State.reset.setPbd .sys 0x21)) = some ([0x21], true) := by decide

/-- G5. -/
theorem test_rdPbdd : after State.reads (exec (.rdPbdd .sys) (State.reset.setPbdd .sys 0xBF)) =
    some [0xBF] := by decide

/-- G10: some byte is returned; which is open. -/
theorem test_rdT4 : after (fun t => t.reads.length) (exec (.rdT4 .app) State.reset) = some 1 := by
  decide

/-- G10. -/
theorem test_rdT5 : after (fun t => t.sys.timer) (exec (.rdT5 .sys) State.reset) =
    some ⟨0, 0, 0, 0, false⟩ := by decide

/-- T19: the read that re-arms. -/
theorem test_rdTcnt_reArms : after (fun t => (t.reads, t.app.timer))
    (exec (.rdTcnt .app) (withTimer .app ⟨8, 10, 0, 0, true⟩)) =
      some ([0x00], ⟨8, 10, 10, 0, false⟩) := by decide

/-- T12: count 0 without the latch does not re-arm. -/
theorem test_rdTcnt_running : after (fun t => (t.reads, t.app.timer))
    (exec (.rdTcnt .app) (withTimer .app ⟨8, 0, 0, 8, false⟩)) =
      some ([0x00], ⟨8, 0, 0, 8, false⟩) := by decide

/-- T3. -/
theorem test_rdTstat : after State.reads
    (exec (.rdTstat .app) (withTimer .app ⟨8, 10, 0, 0, true⟩)) = some [0x80] := by decide

/-- G6. -/
theorem test_wrPad : after (fun t => (t.sys.pad, t.app.pad)) (exec (.wrPad .sys 0x99) State.reset) =
    some (0x99, 0x00) := by decide

/-- Rule R147's example. -/
theorem test_wrPadd : after (fun t => (t.sys.padd, t.sys.pad))
    (exec (.wrPadd .sys 0x7F) State.reset) = some (0x7F, 0x00) := by decide

/-- G4: no frame on `APP`. -/
theorem test_wrPbd : after (fun t => (t.app.pbd, t.ser.active))
    (exec (.wrPbd 0x00) (State.reset.setPbd .app 0xFF)) = some (0x00, false) := by decide

/-- S1, fifth line: a 0 bit. -/
theorem test_wrPbdSer_consumes : after (fun t => t.ser)
    (exec (.wrPbdSer 0x01) (withSer ⟨true, 6, 0x04, true⟩)) = some ⟨true, 7, 0x82, false⟩ := by
  decide

/-- S1, last line. -/
theorem test_wrPbdSer_emits : after (fun t => (t.ser, t.txcon, t.txtape))
    (exec (.wrPbdSer 0x01) (withSer ⟨true, 8, 0x41, true⟩)) =
      some (⟨false, 8, 0x41, true⟩, [0x41], []) := by decide

/-- G5. -/
theorem test_wrPbdd : after (fun t => (t.sys.pbdd, t.app.pbdd))
    (exec (.wrPbdd .sys 0xBF) State.reset) = some (0xBF, 0x00) := by decide

/-- T13. -/
theorem test_wrTim1 : after (fun t => (t.app.timer, t.sys.timer)) (exec (.wrTim1 .app 5) State.reset) =
    some (⟨1, 5, 5, 0, false⟩, ⟨0, 0, 0, 0, false⟩) := by decide

/-- T22: the remainder is discarded. -/
theorem test_wrTim8 : after (fun t => t.app.timer)
    (exec (.wrTim8 .app 10) (withTimer .app ⟨8, 10, 6, 7, false⟩)) =
      some ⟨8, 10, 10, 0, false⟩ := by decide

/-- P5. -/
theorem test_wrTim64 : after (fun t => (t.sys.timer, t.app.timer))
    (exec (.wrTim64 .sys 1) State.reset) =
      some (⟨64, 1, 1, 0, false⟩, ⟨0, 0, 0, 0, false⟩) := by decide

/-- T21. -/
theorem test_wrTim1024 : after (fun t => t.app.timer)
    (exec (.wrTim1024 .app 2) (withTimer .app ⟨8, 10, 0, 4, true⟩)) =
      some ⟨1024, 2, 2, 0, false⟩ := by decide

/-- Z2. -/
theorem test_reset : after (fun t => (t.app.timer, t.ser, t.key))
    (exec .reset { withTimer .app ⟨8, 10, 0, 0, true⟩ with ser := ⟨true, 0, 0, false⟩, key := 3 }) =
      some (⟨0, 0, 0, 0, false⟩, ⟨false, 0, 0, false⟩, 0x15) := by decide

/-- T5, second tick: a remainder equal to the prescale does not exceed it. -/
theorem test_tick_equal : after (fun t => t.app.timer)
    (exec (.tick 8) (withTimer .app ⟨8, 10, 1, 0, false⟩)) = some ⟨8, 10, 1, 8, false⟩ := by decide

/-- T4, second tick, and an unarmed timer beside it. -/
theorem test_tick_latches : after (fun t => (t.app.timer, t.sys.timer))
    (exec (.tick 41) (withTimer .app ⟨8, 10, 6, 7, false⟩)) =
      some (⟨8, 10, 0, 0, true⟩, ⟨0, 0, 0, 0, false⟩) := by decide

/-- H1. -/
theorem test_keyset : after (fun t => (t.key, t.sermode)) (exec (.keyset 0x0A) State.reset) =
    some (0x0A, false) := by decide

/-- H2. -/
theorem test_modeset : after (fun t => (t.sermode, t.tapew)) (exec (.modeset true) State.reset) =
    some (true, false) := by decide

/-- H3. -/
theorem test_tapeset : after (fun t => (t.tapew, t.sermode)) (exec (.tapeset true) State.reset) =
    some (true, false) := by decide

/-- The reset memory is in canonical form. -/
theorem test_reset_ram_wf :
    Memory.wf State.reset.cfg.ramInitByte State.reset.ram = true := by decide

/-- A write of what the address reads as when unlisted removes its entry. -/
theorem test_ram_canonical :
    ((State.reset.setRamByte 5 1).setRamByte 3 2).ram = [(3, 2), (5, 1)] ∧
    (((State.reset.setRamByte 5 1).setRamByte 3 2).setRamByte 5 0).ram = [(3, 2)] := by decide

/-! Witnesses: for each obligation with hypotheses, a state and operands that meet them, each clause
at the ends of its range. -/

theorem witness_DecodeOfEncodeIsTheOperation :
    Instr.wf Params.suggested (.rdRomA 0x1800) = true ∧
    Instr.wf Params.suggested (.rdRomA 0x1BFF) = true ∧
    Instr.wf Params.suggested (.rdRomB 0x1FFF) = true ∧
    Instr.wf Params.suggested (.rdHimir 0xFFFF) = true ∧
    Instr.wf Params.suggested (.wrRom 0x1800 0xFF) = true ∧
    Instr.wf Params.suggested (.wrRom 0x1FFF 0xFF) = true ∧
    Instr.wf Params.suggested (.wrRom 0xFFFA 0xFF) = true ∧
    Instr.wf Params.suggested (.rdChip .sys 63) = true ∧
    Instr.wf Params.suggested (.rdRam 0x03FF) = true ∧
    Instr.wf Params.suggested (.wrRam 0x0000 0xFF) = true ∧
    Instr.wf Params.suggested (.rdNone 0x0400) = true ∧
    Instr.wf Params.suggested (.wrNone 0xFFF9 0xFF) = true ∧
    Instr.wf Params.suggested (.tick (2 ^ 32 - 1)) = true ∧
    Instr.wf Params.suggested (.wrPbdSer 0xFF) = true ∧
    Instr.wf Params.suggested .reset = true := by decide

theorem witness_DecodedOperationIsWellFormed :
    decode Config.suggested.toParams (.bus 0x103FF12) = .ok (.wrRam 0x03FF 0x12) ∧
    decode Config.suggested.toParams (.evt 0x1FFFFFFFF) = .ok (.tick (2 ^ 32 - 1)) :=
  ⟨rfl, rfl⟩

theorem witness_AliasBitsSelectNothing :
    (0 : BitVec 6).toNat % 8 = (56 : BitVec 6).toNat % 8 ∧
    (7 : BitVec 6).toNat % 8 = (63 : BitVec 6).toNat % 8 := by decide

theorem witness_EveryWordRunsButInvalidEvents :
    { State.reset with pending := [.bus 0x1FFFFFF] }.pending = [.bus 0x1FFFFFF] ∧
    { State.reset with pending := [.reg 0xFFFF] }.pending = [.reg 0xFFFF] ∧
    { State.reset with pending := [.evt 0x4FFFFFFFF] }.pending = [.evt 0x4FFFFFFFF] ∧
    ((0x4FFFFFFFF : BitVec 35).extractLsb' 32 3).toNat < 5 ∧
    5 ≤ ((0x500000000 : BitVec 35).extractLsb' 32 3).toNat ∧
    5 ≤ ((0x7FFFFFFFF : BitVec 35).extractLsb' 32 3).toNat := by decide

theorem witness_StepRunsTheNextPresentedWord :
    (State.reset.withFetchWord 16 0x405A).pending = .reg 0x405A :: [] ∧
    decode (State.reset.withFetchWord 16 0x405A).cfg.toParams (.reg 0x405A) =
      .ok (.wrPad .app 0x5A) ∧
    State.reset.pending = [] := ⟨rfl, rfl, rfl⟩

theorem witness_WindowsTakePrecedenceOverRam :
    wide.inRomA 0x1800 = true ∧ wide.inRomA 0x1BFF = true ∧
    wide.inRomB 0x1C00 = true ∧ wide.inRomB 0x1FFF = true ∧
    wide.inHimir 0xFFFA = true ∧ wide.inHimir 0xFFFF = true ∧
    wide.inChip .app 0x1700 = true ∧ wide.inChip .app 0x173F = true ∧
    wide.inChip .sys 0x1740 = true ∧ wide.inChip .sys 0x177F = true ∧
    wide.inFn .app 0x1780 = true ∧ wide.inFn .app 0x1787 = true ∧
    wide.inFn .sys 0x1790 = true ∧ wide.inFn .sys 0x17CE = true ∧
    wide.windows.all (fun w => !w.contains 0x17CF) = true ∧
    Config.suggested.windows.all (fun w => !w.contains 0x03FF) = true ∧
    Config.suggested.windows.all (fun w => !w.contains 0x0400) = true := by decide

theorem witness_FullRamLeavesNothingUnmapped :
    wide.ramSize = .full ∧
    wide.windows.all (fun w => !w.contains (0x8000 : Addr).toNat) = true ∧
    wide.windows.all (fun w => !w.contains (0xFFF9 : Addr).toNat) = true := by decide

theorem witness_RomReadsReturnTheImageByte :
    wide.inRomA (0x1800 : Addr).toNat = true ∧ wide.inRomA (0x1BFF : Addr).toNat = true ∧
    wide.inRomB (0x1C00 : Addr).toNat = true ∧ wide.inRomB (0x1FFF : Addr).toNat = true := by
  decide

theorem witness_HighMirrorReadsThePrimaryByte :
    wide.inHimir (0xFFFA : Addr).toNat = true ∧ wide.inHimir (0xFFFF : Addr).toNat = true ∧
    wide.himirRom = .b ∧
    (0x1FFF : Addr).toNat =
      wide.romBBase + wide.himirOff + ((0xFFFF : Addr).toNat - wide.himirBase) ∧
    wideA.inHimir (0xFFFA : Addr).toNat = true ∧ wideA.himirRom = .a ∧
    (0x1BFA : Addr).toNat =
      wideA.romABase + wideA.himirOff + ((0xFFFA : Addr).toNat - wideA.himirBase) := by decide

theorem witness_RomWritesAreIgnored :
    State.reset.cfg.inRomA (0x1BFF : Addr).toNat = true ∧
    State.reset.cfg.inRomB (0x1C00 : Addr).toNat = true ∧
    State.reset.cfg.inHimir (0xFFFA : Addr).toNat = true := by decide

theorem witness_ChipWindowsReachTheirChip :
    wide.inChip .app (0x1700 : Addr).toNat = true ∧
    wide.inChip .sys (0x177F : Addr).toNat = true ∧
    wide.fnWindow .app = some ⟨0x1780, 8⟩ ∧
    (Window.mk 0x1780 8).contains (0x1780 : Addr).toNat = true ∧
    wide.fnWindow .sys = some ⟨0x1790, 63⟩ ∧
    (Window.mk 0x1790 63).contains (0x17CE : Addr).toNat = true := by decide

theorem witness_RamReadsAndWrites :
    State.reset.cfg.regionOf (0x0000 : Addr).toNat = .ram ∧
    State.reset.cfg.regionOf (0x03FF : Addr).toNat = .ram ∧
    Memory.wf State.reset.cfg.ramInitByte (State.reset.setRamByte 0x0010 0xAB).ram = true ∧
    ∀ i ∈ [Instr.wrRam 0x0011 0xAB, .tick 9, .wrRom 0xFFFA 0x01],
      i ≠ .reset ∧ ∀ w, i ≠ .wrRam 0x0010 w :=
  ⟨by decide, by decide, by decide, by simp⟩

theorem witness_UnmappedAccessesReadZeroAndDropWrites :
    State.reset.cfg.regionOf (0x0400 : Addr).toNat = .none ∧
    State.reset.cfg.regionOf (0xFFF9 : Addr).toNat = .none := by decide

theorem witness_PortRegistersAreFlipFlops :
    ((0 : BitVec 6).toNat % 8 < 4 ∧ (56 : BitVec 6).toNat % 8 = (0 : BitVec 6).toNat % 8 ∧
      (Chip.app = .sys → (0 : BitVec 6).toNat % 8 ≠ 0)) ∧
    ((3 : BitVec 6).toNat % 8 < 4 ∧ (59 : BitVec 6).toNat % 8 = (3 : BitVec 6).toNat % 8 ∧
      (Chip.sys = .sys → (3 : BitVec 6).toNat % 8 ≠ 0)) := by decide

theorem witness_CountReadReArmsATimedOutTimer :
    (State.reset.chip .app).timer.timeout = false ∧
    (withTimer .app ⟨8, 10, 0, 0, true⟩).app.timer.timeout = true ∧
    (withTimer .sys ⟨1, 255, 0, 0, true⟩).sys.timer.timeout = true ∧
    ((withTimer .sys ⟨1, 255, 0, 0, true⟩).chip .sys).timer.count = 0 := by decide

/-- A running timer that takes `n` ticks without exceeding its divisor. -/
abbrev Accumulates (n : Nat) (x : Timer) : Prop :=
  0 < x.prescale ∧ x.timeout = false ∧ x.rem + n ≤ x.prescale

/-- A running timer that `n` ticks take past its divisor. -/
abbrev Exceeds (n : Nat) (x : Timer) : Prop :=
  0 < x.prescale ∧ x.timeout = false ∧ x.prescale < x.rem + n

/-- One timer for each clause, at the edges where the clauses meet. -/
theorem witness_TickFeedsBothTimers :
    (withTimer .app ⟨0, 0, 0, 0, false⟩).app.timer.prescale = 0 ∧
    (withTimer .app ⟨8, 10, 0, 0, true⟩).app.timer.timeout = true ∧
    Accumulates 1 (withTimer .app ⟨8, 10, 1, 7, false⟩).app.timer ∧
    (Exceeds 1 (withTimer .app ⟨8, 10, 1, 8, false⟩).app.timer ∧
      (1 : Byte).toNat ≤ (8 + 1) / 8) ∧
    (Exceeds 9 (withTimer .sys ⟨8, 10, 2, 0, false⟩).sys.timer ∧
      (0 + 9) / 8 < (2 : Byte).toNat) := by decide

theorem witness_TickZeroChangesNothing :
    (withTimer .app ⟨8, 10, 1, 8, false⟩).app.timer.Inv ∧
    (withTimer .app ⟨8, 10, 1, 8, false⟩).sys.timer.Inv ∧
    (withTimer .sys ⟨1024, 255, 0, 1023, true⟩).sys.timer.Inv := by decide

/-- T5: two ticks with the latch still clear. -/
theorem witness_TicksAreConserved :
    8 ∈ [1, 8, 64, 1024] ∧
    ((withTimer .app ⟨8, 10, 10, 0, false⟩).chip .app).timer = ⟨8, 10, 10, 0, false⟩ ∧
    after (fun t => (t.chip .app).timer)
      (runOps ([72, 8].map Instr.tick) (withTimer .app ⟨8, 10, 10, 0, false⟩)) =
        some ⟨8, 10, 1, 8, false⟩ := by decide

/-- T11, T12 and T3: start values 1, 0 and 10, with totals at the edges; a total of `v * p` reached
with the latch set (T3) and clear (T5). -/
theorem witness_TimeoutThresholds :
    1024 ∈ [1, 8, 64, 1024] ∧ 8 ∈ [1, 8, 64, 1024] ∧
    ((withTimer .sys ⟨8, 1, 1, 0, false⟩).chip .sys).timer = ⟨8, 1, 1, 0, false⟩ ∧
    (1 ≤ (1 : Byte).toNat ∧ [3, 4].sum < (1 : Byte).toNat * 8) ∧
    (1 ≤ (1 : Byte).toNat ∧ (1 : Byte).toNat * 8 + 1 ≤ [4, 5].sum) ∧
    ((1 : Byte).toNat = 1 ∧ [3, 5].sum = 8) ∧
    ((withTimer .app ⟨8, 10, 10, 0, false⟩).chip .app).timer = ⟨8, 10, 10, 0, false⟩ ∧
    (1 ≤ (10 : Byte).toNat ∧ [80].sum = (10 : Byte).toNat * 8 ∧
      [72, 8].sum = (10 : Byte).toNat * 8) ∧
    ((withTimer .sys ⟨8, 0, 0, 0, false⟩).chip .sys).timer = ⟨8, 0, 0, 0, false⟩ ∧
    (0 : Byte).toNat = 0 := by decide

theorem witness_UnitTicksLatchAtTheStatedTick :
    ((withTimer .app ⟨8, 1, 1, 0, false⟩).chip .app).timer = ⟨8, 1, 1, 0, false⟩ ∧
    1 < 8 ∧ 1 ≤ (1 : Byte).toNat ∧
    ((withTimer .app ⟨1024, 0, 0, 0, false⟩).chip .app).timer = ⟨1024, 0, 0, 0, false⟩ ∧
    1 < 1024 ∧ (0 : Byte).toNat = 0 ∧
    ((withTimer .app ⟨1, 0, 0, 0, false⟩).chip .app).timer = ⟨1, 0, 0, 0, false⟩ := by decide

theorem witness_ScanAnswersTheRowsPattern :
    ((0x00 : Byte).toNat = (0 : Fin 7).val ∧ (0x06 : Byte).toNat = (6 : Fin 7).val) ∧
    6 < (0x07 : Byte).toNat ∧
    ((0x07 : Byte).toNat = 7 + (0 : Fin 7).val ∧ (0x0D : Byte).toNat = 7 + (6 : Fin 7).val) ∧
    ((0x06 : Byte).toNat < 7 ∧ 13 < (0x0E : Byte).toNat) ∧
    ((0x0E : Byte).toNat = 14 + (0 : Fin 7).val ∧ (0x14 : Byte).toNat = 14 + (6 : Fin 7).val) ∧
    ((0x0D : Byte).toNat < 14 ∧ 20 < (0x15 : Byte).toNat) ∧
    4 ≤ 4 := by decide

theorem witness_RowAndPatternDetermineTheKey :
    (0x14 : Byte).toNat ≤ 20 ∧ 2 < 3 ∧
    scan Config.suggested.keypat 2 0x14 false ≠ 0xFF ∧
    scan Config.suggested.keypat 0 0x00 true ≠ 0xFF := by decide

theorem witness_SerialWriteStartsOrTakesABit :
    (State.reset.ser.active = false ∧ (0xFE : Byte).getLsbD 0 = false) ∧
    (State.reset.ser.active = false ∧ (0x01 : Byte).getLsbD 0 = true) ∧
    ((withSer ⟨true, 0, 0, false⟩).ser.active = true ∧
      (withSer ⟨true, 0, 0, false⟩).ser.bitready = false) ∧
    ((withSer ⟨true, 7, 0x82, true⟩).ser.active = true ∧
      (withSer ⟨true, 7, 0x82, true⟩).ser.bitready = true ∧
      (withSer ⟨true, 7, 0x82, true⟩).ser.bitcnt ≠ 8) := by decide

theorem witness_NinthQualifyingWriteEmits :
    ((withSer ⟨true, 8, 0x41, true⟩).ser.active = true ∧
      (withSer ⟨true, 8, 0x41, true⟩).ser.bitready = true ∧
      (withSer ⟨true, 8, 0x41, true⟩).ser.bitcnt = 8 ∧
      (withSer ⟨true, 8, 0x41, true⟩).tapew = false) ∧
    ({ withSer ⟨true, 8, 0x01, true⟩ with tapew := true }.tapew = true ∧
      { withSer ⟨true, 8, 0x01, true⟩ with tapew := true }.ser.acc ≠ 0) ∧
    ({ withSer ⟨true, 8, 0x00, true⟩ with tapew := true }.tapew = true ∧
      { withSer ⟨true, 8, 0x00, true⟩ with tapew := true }.ser.acc = 0) := by decide

theorem witness_FrameIsSentLeastSignificantBitFirst :
    State.reset.ser.active = false ∧
    (#v[0x00, 0x01, 0x00, 0x00, 0x00, 0x00, 0x00, 0x01, 0x00, 0x01] : Vector Byte 10)[0].getLsbD 0 =
      false := by decide

theorem witness_ResetGivesThePowerOnState :
    exec .reset State.reset = .next State.reset := rfl

theorem witness_EveryOperationCompletes :
    Instr.isRead (.rdT4 .sys) = true ∧ Instr.isRead (.tick 0) = false := by decide

theorem witness_NoOperationChangesTheParameters :
    ∃ t, exec (.wrChip .sys 63 0xFF) State.reset = .next t := ⟨_, rfl⟩

/-- The two reads with a side effect, one of them through the bus. -/
theorem witness_ReadsChangeOnlyTheirSideEffect :
    (Instr.isRead (.rdChip .sys 58) = true ∧
      ∃ t, exec (.rdChip .sys 58) State.reset = .next t) ∧
    (Instr.isRead (.rdTcnt .app) = true ∧
      ∃ t, exec (.rdTcnt .app) (withTimer .app ⟨8, 10, 0, 0, true⟩) = .next t) :=
  ⟨⟨rfl, _, rfl⟩, rfl, _, rfl⟩

theorem witness_OnlyRamWritesChangeMemory :
    (∃ t, exec (.wrRam 0x03FF 0x12) State.reset = .next t) ∧
    Instr.wrRam 0x03FF 0x12 ≠ .reset ∧ 0x03FE ≠ (0x03FF : Addr).toNat :=
  ⟨⟨_, rfl⟩, by decide, by decide⟩

theorem witness_ChipsAreIndependent :
    Instr.chipAddressed (.rdTcnt .app) = some .app ∧ Chip.sys ≠ .app ∧
    ∃ t, exec (.rdTcnt .app) (withTimer .app ⟨8, 10, 0, 0, true⟩) = .next t :=
  ⟨rfl, by decide, _, rfl⟩

theorem witness_HostInputsBelongToTheHost :
    ((∃ t, exec (.tick 9) State.reset = .next t) ∧ (∀ k, Instr.tick 9 ≠ .keyset k) ∧
      (∀ m, Instr.tick 9 ≠ .modeset m) ∧ (∀ x, Instr.tick 9 ≠ .tapeset x) ∧
      Instr.tick 9 ≠ .reset) ∧
    (∃ t, exec (.keyset 0x0A) State.reset = .next t) ∧
    (∃ t, exec (.modeset true) State.reset = .next t) ∧
    (∃ t, exec (.tapeset true) State.reset = .next t) :=
  ⟨⟨⟨_, rfl⟩, by simp, by simp, by simp, by decide⟩, ⟨_, rfl⟩, ⟨_, rfl⟩, _, rfl⟩

theorem witness_OnlyTicksAdvanceTheTimers :
    (∃ t, exec (.wrTim8 .app 0x0A) State.reset = .next t) ∧
    (∀ n, Instr.wrTim8 .app 0x0A ≠ .tick n) ∧ Instr.wrTim8 .app 0x0A ≠ .reset ∧
    (State.reset.chip .app).timer.timeout = false :=
  ⟨⟨_, rfl⟩, by simp, by decide, rfl⟩

theorem witness_LogsGrowOnlyByAnEmittedByte :
    (∃ t, exec (.wrChip .sys 10 0x00) (withSer ⟨true, 8, 0x41, true⟩) = .next t) ∧
    Instr.wrChip .sys 10 0x00 ≠ .reset := ⟨⟨_, rfl⟩, by decide⟩

theorem witness_ShiftRegisterMovesOnlyThroughItsRegister :
    ((∃ t, exec (.rdChip .app 2) State.reset = .next t) ∧
      Instr.readsSerialLine (.rdChip .app 2) = false ∧
      Instr.writesSerialLine (.rdChip .app 2) = false) ∧
    ((∃ t, exec (.rdChip .sys 10) State.reset = .next t) ∧
      Instr.readsSerialLine (.rdChip .sys 10) = true) ∧
    ((withSer ⟨true, 8, 0x41, true⟩).ser.active = true ∧
      after (fun t => t.ser.active) (exec (.wrPbdSer 0) (withSer ⟨true, 8, 0x41, true⟩)) =
        some false) ∧
    (State.reset.ser.active = false ∧
      after (fun t => t.ser.active) (exec (.wrChip .sys 58 0) State.reset) = some true) :=
  ⟨⟨⟨_, rfl⟩, rfl, rfl⟩, ⟨⟨_, rfl⟩, rfl⟩, ⟨rfl, rfl⟩, rfl, rfl⟩

theorem witness_StepKeepsTheBlockInvariant :
    State.Inv (State.reset.withFetchWord 32 0x103FF12) ∧
    ∃ t, step (State.reset.withFetchWord 32 0x103FF12) = .next t := ⟨by decide, _, rfl⟩

theorem witness_IdleSerialFieldsCannotBeObserved :
    State.SameButIdleSerial (withSer ⟨false, 8, 0x41, true⟩) State.reset ∧
    State.SameButIdleSerial (withSer ⟨true, 3, 0xE0, true⟩) (withSer ⟨true, 3, 0xE0, true⟩) ∧
    ∃ t, exec (.wrPbdSer 0) (withSer ⟨false, 8, 0x41, true⟩) = .next t :=
  ⟨⟨rfl, by decide, rfl⟩, ⟨rfl, fun _ => rfl, rfl⟩, _, rfl⟩

theorem witness_StoredSysPadCannotBeObserved :
    State.SameButSysPad (State.reset.setPad .sys 0x99) State.reset ∧
    ∃ t, exec .rdPadKey (State.reset.setPad .sys 0x99) = .next t := ⟨rfl, _, rfl⟩

end Sys2Proof.Tests
end

section
/-! SUPPORT. Proofs: the address multiplexer (spec/40_address_mux.md). Which region an address of a
window has, the index of its byte in the image, and what every operation does to the memory. -/

namespace Sys2Proof

/-! The region of an address (rule R68). -/

namespace Config

variable {c : Config} {a : Nat}

theorem regionOf_of_inRomA (h : c.inRomA a = true) : c.regionOf a = .romA := by
  simp only [Params.regionOf, h, if_true]

theorem regionOf_of_inRomB (h : c.inRomB a = true) : c.regionOf a = .romB := by
  have hA : c.inRomA a = false :=
    Window.allDisjoint_head (x := c.romBWindow) c.allDisjoint List.mem_cons_self h
  simp only [Params.regionOf, hA, h, Bool.false_eq_true, if_false, if_true]

theorem regionOf_of_inHimir (h : c.inHimir a = true) : c.regionOf a = .himir := by
  have hA : c.inRomA a = false :=
    Window.allDisjoint_head (x := c.himirWindow) c.allDisjoint
      (List.mem_cons_of_mem _ List.mem_cons_self) h
  have hB : c.inRomB a = false :=
    Window.allDisjoint_head (x := c.himirWindow) (Window.allDisjoint_tail c.allDisjoint)
      List.mem_cons_self h
  simp only [Params.regionOf, hA, hB, h, Bool.false_eq_true, if_false, if_true]

end Config

theorem Params.lt_limit_of_regionOf_ram {p : Params} {a : Nat} (h : p.regionOf a = .ram) :
    a < p.ramSize.limit := by
  unfold Params.regionOf at h
  repeat (split at h; · cases h)
  split at h
  · exact of_decide_eq_true ‹p.inRam a = true›
  · cases h

end Sys2Proof

namespace Sys2Proof.Machine

/-! The index of a byte in its image (rule R98). -/

/-- Inside a window of 1024 bytes the index is the distance from the base, unreduced. -/
theorem romIndex_eq_sub {base : Nat} {a : Addr} (h : base ≤ a.toNat ∧ a.toNat < base + 1024) :
    romIndex base a = a.toNat - base :=
  Nat.mod_eq_of_lt (by omega)

/-- Inside the mirror the index is unreduced, since the mirror lies inside its image (D4). -/
theorem himirIndex_eq_add {c : Config} {a : Addr} (h : c.inHimir a.toNat = true) :
    himirIndex c.toParams a = c.himirOff + (a.toNat - c.himirBase) := by
  have hmir := (Params.inHimir_iff _ _).1 h
  have himg := c.himir_in_image
  exact Nat.mod_eq_of_lt (by omega)

/-- A mirrored address and its primary-window address have the same index. -/
theorem romIndex_eq_himirIndex {p : Params} {base : Nat} {a b : Addr}
    (h : b.toNat = base + p.himirOff + (a.toNat - p.himirBase)) :
    romIndex base b = himirIndex p a := by
  rw [romIndex, himirIndex, h, Nat.add_assoc, Nat.add_sub_cancel_left]

/-! What every operation does to the parameters and to the memory. -/

theorem exec_rdTcnt_completes (c : Chip) (s : State) : ∃ t, exec (.rdTcnt c) s = .next t := by
  cases h : (s.chip c).timer.timeout with
  | false => exact ⟨_, exec_rdTcnt_running s c h⟩
  | true => exact ⟨_, exec_rdTcnt_timedOut s c h⟩

/-- Every operation answers a next state (rule R240). -/
theorem exec_completes (i : Instr) (s : State) : ∃ t, exec i s = .next t := by
  cases i with
  | rdTcnt c => exact exec_rdTcnt_completes c s
  | rdChip c o =>
    rw [exec_rdChip]
    unfold decodeRegRead
    split
    -- The count read (register select 6) is the one that branches on the state.
    case h_9 => exact exec_rdTcnt_completes _ s
    all_goals exact ⟨_, rfl⟩
  | wrChip c o v =>
    rw [exec_wrChip]
    unfold decodeRegWrite
    split <;> exact ⟨_, rfl⟩
  | _ => exact ⟨_, rfl⟩

/-- The memory after an operation: only `WR_RAM` and `RESET` write it (rules R123, R131). -/
def ramAfter (s : State) : Instr → Memory
  | .wrRam a v => (s.setRamByte a.toNat v).ram
  | .reset => []
  | _ => s.ram

theorem ramAfter_decodeRegRead (s : State) (c : Chip) (r : Nat) :
    ramAfter s (decodeRegRead c r) = s.ram := by
  unfold decodeRegRead
  split <;> rfl

theorem ramAfter_decodeRegWrite (s : State) (c : Chip) (r : Nat) (v : Byte) :
    ramAfter s (decodeRegWrite c r v) = s.ram := by
  unfold decodeRegWrite
  split <;> rfl

/-- No operation changes the parameters, and the memory becomes what `ramAfter` says. -/
theorem exec_cfg_ram {i : Instr} {s t : State} (h : exec i s = .next t) :
    t.cfg = s.cfg ∧ t.ram = ramAfter s i := by
  refine exec_next_cases (fun i s t => t.cfg = s.cfg ∧ t.ram = ramAfter s i)
    ?running ?timedOut ?plain ?chipRead ?chipWrite i s t h
  case running => exact fun _ _ _ => ⟨rfl, rfl⟩
  case timedOut => exact fun _ _ _ => ⟨rfl, rfl⟩
  case plain =>
    intro i s t h hTcnt hRd hWr
    cases i
    case rdTcnt c => exact absurd rfl (hTcnt c)
    case rdChip c o => exact absurd rfl (hRd c o)
    case wrChip c o v => exact absurd rfl (hWr c o v)
    case wrPbdSer v =>
      cases h
      exact ⟨State.serialWrite_cfg _ _, State.serialWrite_ram _ _⟩
    all_goals cases h; exact ⟨rfl, rfl⟩
  case chipRead =>
    rintro c o s t ⟨hcfg, hram⟩
    exact ⟨hcfg, hram.trans (ramAfter_decodeRegRead s c _)⟩
  case chipWrite =>
    rintro c o v s t ⟨hcfg, hram⟩
    exact ⟨hcfg, hram.trans (ramAfter_decodeRegWrite s c _ v)⟩

/-- A byte of RAM depends on the parameters and the memory alone. -/
theorem State.ramByte_congr {s t : State} (hcfg : t.cfg = s.cfg) (hram : t.ram = s.ram) (b : Nat) :
    t.ramByte b = s.ramByte b := by
  rw [State.ramByte, State.ramByte, hcfg, hram]

@[simp] theorem State.powerOn_ramByte (s : State) (b : Nat) :
    s.powerOn.ramByte b = s.cfg.ramInitByte b := rfl

@[simp] theorem State.resetWith_ramByte (c : Config) (b : Nat) :
    (State.resetWith c).ramByte b = c.ramInitByte b := rfl

/-- But for `RESET` and a `WR_RAM` of its own address, no operation changes a byte of RAM. -/
theorem exec_ramByte_of_not_written {i : Instr} {s t : State} {b : Nat} (h : exec i s = .next t)
    (hreset : i ≠ .reset) (hwr : ∀ a v, i = .wrRam a v → b ≠ a.toNat) :
    t.ramByte b = s.ramByte b := by
  obtain ⟨hcfg, hram⟩ := exec_cfg_ram h
  cases i
  case reset => exact absurd rfl hreset
  case wrRam a v => cases h; exact State.ramByte_setRamByte_other s _ b v (hwr a v rfl)
  all_goals exact State.ramByte_congr hcfg hram b

/-- A run with no `RESET` and no `WR_RAM` of an address leaves the byte there as it was. -/
theorem runOps_ramByte_of_not_written {ops : List Instr} {a : Addr} (s : State)
    (h : ∀ i ∈ ops, i ≠ .reset ∧ ∀ w, i ≠ .wrRam a w) :
    ∃ t, runOps ops s = .next t ∧ t.ramByte a.toNat = s.ramByte a.toNat := by
  refine runOps_induction (Inv := fun t => t.ramByte a.toNat = s.ramByte a.toNat) rfl ?_
  intro i hi u hu
  obtain ⟨hreset, hwr⟩ := h i hi
  obtain ⟨t, ht⟩ := exec_completes i u
  have hother : ∀ b v, i = .wrRam b v → a.toNat ≠ b.toNat := by
    rintro b v rfl hab
    exact hwr v (by rw [BitVec.eq_of_toNat_eq hab])
  exact ⟨t, ht, (exec_ramByte_of_not_written ht hreset hother).trans hu⟩

/-! The obligations. -/

/-- Settles O9: each ROM window decodes to its own read, whose index is unreduced. -/
theorem romReadsReturnTheImageByte : Obligations.RomReadsReturnTheImageByte := by
  intro s a d
  constructor
  · intro h
    constructor
    · rw [decode, decodeBus_busWord, Config.regionOf_of_inRomA h]
    · rw [exec_rdRomA, romIndex_eq_sub ((Params.inRomA_iff _ _).1 h), State.answer]
  · intro h
    constructor
    · rw [decode, decodeBus_busWord, Config.regionOf_of_inRomB h]
    · rw [exec_rdRomB, romIndex_eq_sub ((Params.inRomB_iff _ _).1 h), State.answer]

/-- Settles O10: the mirror's index is the index of the primary window's address. -/
theorem highMirrorReadsThePrimaryByte : Obligations.HighMirrorReadsThePrimaryByte := by
  intro s a d h
  refine ⟨?decodes, ?answers, ?mirrorsA, ?mirrorsB⟩
  case decodes => rw [decode, decodeBus_busWord, Config.regionOf_of_inHimir h]
  case answers => rw [exec_rdHimir, himirIndex_eq_add h, State.answer]
  case mirrorsA =>
    intro hrom b hb
    rw [exec_rdRomA, exec_rdHimir, romIndex_eq_himirIndex hb, hrom]
  case mirrorsB =>
    intro hrom b hb
    rw [exec_rdRomB, exec_rdHimir, romIndex_eq_himirIndex hb, hrom]

/-- Settles O11: all three regions decode to `WR_ROM`, which writes no state. -/
theorem romWritesAreIgnored : Obligations.RomWritesAreIgnored := by
  intro s a v h
  refine ⟨?_, exec_wrRom s a v⟩
  rw [decode, decodeBus_busWord]
  rcases h with hA | hB | hMir
  · rw [Config.regionOf_of_inRomA hA]
  · rw [Config.regionOf_of_inRomB hB]
  · rw [Config.regionOf_of_inHimir hMir]

/-- Settles O14: the read-back law needs RAM in canonical form, and a byte that is not written keeps
its value along the run from `RESET`. -/
theorem ramReadsAndWrites : Obligations.RamReadsAndWrites := by
  intro s a v d hregion hwf
  refine ⟨Params.lt_limit_of_regionOf_ram hregion, ?decodesRead, exec_rdRam s a, ?decodesWrite,
    ?stores, State.resetWith_ramByte _ _, ?unwritten⟩
  case decodesRead => rw [decode, decodeBus_busWord, hregion]
  case decodesWrite => rw [decode, decodeBus_busWord, hregion]
  case stores => exact ⟨_, exec_wrRam s a v, rfl, fun b => State.ramByte_setRamByte s _ b v hwf⟩
  case unwritten =>
    intro ops hops
    rw [runOps_cons ops (exec_reset s), ← State.powerOn_ramByte]
    exact runOps_ramByte_of_not_written s.powerOn hops

/-- Settles O15: an unmapped read answers 0x00 and an unmapped write is dropped. -/
theorem unmappedAccessesReadZeroAndDropWrites :
    Obligations.UnmappedAccessesReadZeroAndDropWrites := by
  intro s a v d h
  refine ⟨?decodesRead, exec_rdNone s a, ?decodesWrite, exec_wrNone s a v⟩
  case decodesRead => rw [decode, decodeBus_busWord, h]
  case decodesWrite => rw [decode, decodeBus_busWord, h]

end Sys2Proof.Machine
end

section
/-! The keyboard scan (spec/43_keyboard_scan.md). -/

namespace Sys2Proof.Machine

section
variable {keypat : Vector Byte 7} {key : Byte} {mode : Bool} {i : Fin 7}

theorem scan_row0_eq_getElem (h : key.toNat = i.val) : scan keypat 0 key mode = keypat[i] := by
  rw [scan_row0 keypat key mode (by omega)]
  simp only [h, Fin.getElem_fin]

theorem scan_row1_eq_getElem (h : key.toNat = 7 + i.val) :
    scan keypat 1 key mode = keypat[i] := by
  rw [scan_row1 keypat key mode (by omega)]
  simp only [h, Nat.add_sub_cancel_left, Fin.getElem_fin]

theorem scan_row2_eq_getElem (h : key.toNat = 14 + i.val) :
    scan keypat 2 key mode = keypat[i] := by
  rw [scan_row2 keypat key mode (by omega)]
  simp only [h, Nat.add_sub_cancel_left, Fin.getElem_fin]

end

/-- Settles O30: each row's law, where the key a row answers for is written as the row's offset plus
an index into the pattern. -/
theorem scanAnswersTheRowsPattern : Obligations.ScanAnswersTheRowsPattern := by
  intro keypat key mode
  refine ⟨fun _ => scan_row0_eq_getElem, scan_row0_none keypat key mode,
    fun _ => scan_row1_eq_getElem, ?otherKeyRow1, fun _ => scan_row2_eq_getElem, ?otherKeyRow2,
    scan_row3 keypat key mode, fun _ => scan_other keypat key mode⟩
  case otherKeyRow1 => exact fun h => scan_row1_none keypat key mode (by omega)
  case otherKeyRow2 => exact fun h => scan_row2_none keypat key mode (by omega)

end Sys2Proof.Machine
end

section
/-! The host inputs (spec/45_host_inputs.md). -/

namespace Sys2Proof.Machine

/-- Settles O37: the event select alone picks the operation, whose operand is cut from the payload;
the effects are the three input laws of `exec`. -/
theorem hostInputsAreSetAlone : Obligations.HostInputsAreSetAlone := by
  intro s p k x
  refine ⟨?decodesKeyset, ?decodesModeset, ?decodesTapeset, exec_keyset s k, exec_modeset s x,
    exec_tapeset s x⟩
  case decodesKeyset => exact decodeEvt_evtWord 2 p
  case decodesModeset => exact decodeEvt_evtWord 3 p
  case decodesTapeset => exact decodeEvt_evtWord 4 p

end Sys2Proof.Machine
end

section
/-! Completion of every operation (spec/60_exceptions.md rule R240). That there is a next state is
`exec_completes`; what is left to say is how many bytes an operation answers. -/

namespace Sys2Proof

@[simp] theorem isRead_decodeRegRead (c : Chip) (r : Nat) : (decodeRegRead c r).isRead = true := by
  unfold decodeRegRead
  split <;> rfl

@[simp] theorem isRead_decodeRegWrite (c : Chip) (r : Nat) (v : Byte) :
    (decodeRegWrite c r v).isRead = false := by
  unfold decodeRegWrite
  split <;> rfl

end Sys2Proof

namespace Sys2Proof.Machine

/-- `t` comes after `s` with `n` more bytes answered. -/
def State.AnswersBytes (n : Nat) (s t : State) : Prop :=
  ∃ bs : List Byte, t.reads = s.reads ++ bs ∧ bs.length = n

theorem State.answersBytes_zero {s t : State} : AnswersBytes 0 s t ↔ t.reads = s.reads := by
  simp [AnswersBytes]

theorem State.answersBytes_one {s t : State} :
    AnswersBytes 1 s t ↔ ∃ b, t.reads = s.reads ++ [b] := by
  constructor
  · rintro ⟨bs, hreads, hlen⟩
    obtain ⟨b, rfl⟩ := List.length_eq_one_iff.1 hlen
    exact ⟨b, hreads⟩
  · rintro ⟨b, hreads⟩
    exact ⟨[b], hreads, rfl⟩

/-- A read answers one byte and any other operation none; `RESET` keeps those already answered. -/
theorem exec_answersBytes {i : Instr} {s t : State} (h : exec i s = .next t) :
    State.AnswersBytes i.isRead.toNat s t := by
  refine exec_next_cases (fun i s t => State.AnswersBytes i.isRead.toNat s t)
    ?running ?timedOut ?plain ?chipRead ?chipWrite i s t h
  case running => exact fun _ _ _ => State.answersBytes_one.2 ⟨_, rfl⟩
  case timedOut => exact fun _ _ _ => State.answersBytes_one.2 ⟨_, rfl⟩
  case plain =>
    intro i s t h hTcnt hRd hWr
    cases i
    case rdTcnt c => exact absurd rfl (hTcnt c)
    case rdChip c o => exact absurd rfl (hRd c o)
    case wrChip c o v => exact absurd rfl (hWr c o v)
    case rdRomA | rdRomB | rdHimir | rdRam | rdNone | rdPad | rdPadKey | rdPadd | rdPbd | rdPbdSer
        | rdPbdd | rdT4 | rdT5 | rdTstat =>
      cases h
      exact State.answersBytes_one.2 ⟨_, rfl⟩
    case wrPbdSer v =>
      cases h
      exact State.answersBytes_zero.2 (State.serialWrite_reads _ _)
    all_goals cases h; exact State.answersBytes_zero.2 rfl
  case chipRead =>
    intro c o s t hreg
    rwa [isRead_decodeRegRead] at hreg
  case chipWrite =>
    intro c o v s t hreg
    rwa [isRead_decodeRegWrite] at hreg

/-- Settles O39: every operation completes, and the bytes it answers are counted by its kind. -/
theorem everyOperationCompletes : Obligations.EveryOperationCompletes := by
  intro i s
  obtain ⟨t, ht⟩ := exec_completes i s
  have hbytes := exec_answersBytes ht
  refine ⟨t, ht, fun hread => ?_, fun hother => ?_⟩
  · rw [hread] at hbytes
    exact State.answersBytes_one.1 hbytes
  · rw [hother] at hbytes
    exact State.answersBytes_zero.1 hbytes

end Sys2Proof.Machine
end

section
/-! SUPPORT. Proofs: the address map and the decoder (spec/20_memory.md section 4,
spec/30_encoding.md). Windows do not overlap, so an address in one has that window's region, and a
word decodes to what it was encoded from. -/

namespace Sys2Proof

/-! The region of an address in a chip's windows (rule R68). -/

/-- In a list of pairwise disjoint windows, an address in a later one is not in an earlier one. -/
theorem Window.allDisjoint_earlier {l : List Window} {i a : Nat} {w x : Window}
    (h : Window.allDisjoint l = true) (hw : l[i]? = some w) (hx : x ∈ l.drop (i + 1))
    (ha : x.contains a = true) : w.contains a = false := by
  induction l generalizing i with
  | nil => cases hw
  | cons v l ih =>
    cases i with
    | zero => cases hw; exact Window.allDisjoint_head h hx ha
    | succ i => exact ih (Window.allDisjoint_tail h) hw hx

namespace Config

variable {c : Config} {a : Nat} {chip : Chip} {x : Window}

theorem not_inRomA (hx : x ∈ c.windows.drop 1) (ha : x.contains a = true) : c.inRomA a = false :=
  Window.allDisjoint_earlier (i := 0) c.allDisjoint rfl hx ha

theorem not_inRomB (hx : x ∈ c.windows.drop 2) (ha : x.contains a = true) : c.inRomB a = false :=
  Window.allDisjoint_earlier (i := 1) c.allDisjoint rfl hx ha

theorem not_inHimir (hx : x ∈ c.windows.drop 3) (ha : x.contains a = true) :
    c.inHimir a = false :=
  Window.allDisjoint_earlier (i := 2) c.allDisjoint rfl hx ha

theorem not_inChip_app (hx : x ∈ c.windows.drop 4) (ha : x.contains a = true) :
    c.inChip .app a = false :=
  Window.allDisjoint_earlier (i := 3) c.allDisjoint rfl hx ha

theorem not_inChip_sys (hx : x ∈ c.windows.drop 5) (ha : x.contains a = true) :
    c.inChip .sys a = false :=
  Window.allDisjoint_earlier (i := 4) c.allDisjoint rfl hx ha

theorem not_inFn_app (hx : c.fnSys = some x) (ha : x.contains a = true) :
    c.inFn .app a = false := by
  cases hw : c.fnApp with
  | none => simp [Params.inFn, Params.fnWindow, hw]
  | some w =>
    have hcontains : w.contains a = false :=
      Window.allDisjoint_earlier (i := 5) c.allDisjoint (x := x) (by simp [Params.windows, hw])
        (by simp [Params.windows, hw, hx]) ha
    simp [Params.inFn, Params.fnWindow, hw, hcontains]

theorem inFn_iff : c.inFn chip a = true ↔ ∃ w, c.fnWindow chip = some w ∧ w.contains a = true := by
  simp [Params.inFn, Option.any_eq_true]

theorem regionOf_of_inChip (h : c.inChip chip a = true) : c.regionOf a = .chip chip := by
  have hA : c.inRomA a = false := not_inRomA (by cases chip <;> simp [Params.windows]) h
  have hB : c.inRomB a = false := not_inRomB (by cases chip <;> simp [Params.windows]) h
  have hMir : c.inHimir a = false := not_inHimir (by cases chip <;> simp [Params.windows]) h
  cases chip with
  | app => simp only [Params.regionOf, hA, hB, hMir, h, Bool.false_eq_true, if_false, if_true]
  | sys =>
    have hApp : c.inChip .app a = false := not_inChip_app (by simp [Params.windows]) h
    simp only [Params.regionOf, hA, hB, hMir, hApp, h, Bool.false_eq_true, if_false, if_true]

theorem regionOf_of_fnWindow (hx : c.fnWindow chip = some x) (h : x.contains a = true) :
    c.regionOf a = .fn chip := by
  have hmem : x ∈ c.windows.drop 5 := by
    cases chip <;> simp_all [Params.windows, Params.fnWindow]
  have hA : c.inRomA a = false := not_inRomA (List.mem_of_mem_drop (i := 4) hmem) h
  have hB : c.inRomB a = false := not_inRomB (List.mem_of_mem_drop (i := 3) hmem) h
  have hMir : c.inHimir a = false := not_inHimir (List.mem_of_mem_drop (i := 2) hmem) h
  have hApp : c.inChip .app a = false := not_inChip_app (List.mem_of_mem_drop (i := 1) hmem) h
  have hSys : c.inChip .sys a = false := not_inChip_sys hmem h
  have hFn : c.inFn chip a = true := inFn_iff.2 ⟨x, hx, h⟩
  cases chip with
  | app =>
    simp only [Params.regionOf, hA, hB, hMir, hApp, hSys, hFn, Bool.false_eq_true, if_false,
      if_true]
  | sys =>
    simp only [Params.regionOf, hA, hB, hMir, hApp, hSys, not_inFn_app hx h, hFn,
      Bool.false_eq_true, if_false, if_true]

/-- Outside every window an address is RAM below the limit, and else unmapped. -/
theorem regionOf_of_no_window (h : c.windows.all (fun w => !w.contains a) = true) :
    c.regionOf a = if a < c.ramSize.limit then .ram else .none := by
  simp only [List.all_eq_true, Bool.not_eq_true'] at h
  have hA : c.inRomA a = false := h c.romAWindow (by simp [Params.windows])
  have hB : c.inRomB a = false := h c.romBWindow (by simp [Params.windows])
  have hMir : c.inHimir a = false := h c.himirWindow (by simp [Params.windows])
  have hChip : ∀ chip, c.inChip chip a = false := fun chip =>
    h (c.chipWindow chip) (by cases chip <;> simp [Params.windows])
  have hFn : ∀ chip, c.inFn chip a = false := by
    intro chip
    rw [Bool.eq_false_iff, ne_eq, inFn_iff]
    rintro ⟨w, hw, hcontains⟩
    have hmem : w ∈ c.windows := by cases chip <;> simp_all [Params.windows, Params.fnWindow]
    simp [h w hmem] at hcontains
  simp only [Params.regionOf, hA, hB, hMir, hChip, hFn, Params.inRam, Bool.false_eq_true, if_false,
    decide_eq_true_eq]

end Config

/-! The local offset of an address in a chip's window (rule R98). -/

theorem Params.chipOffset_chipAddr (p : Params) (chip : Chip) (o : BitVec 6) :
    p.chipOffset chip (p.chipBase chip + o.toNat) = o := by
  rw [Params.chipOffset, Nat.add_sub_cancel_left, BitVec.ofNat_toNat, BitVec.setWidth_eq]

/-- The address of local offset `o` of a chip fits in 16 bits. -/
theorem Config.toNat_chipAddr (c : Config) (chip : Chip) (o : BitVec 6) :
    (BitVec.ofNat 16 (c.chipBase chip + o.toNat)).toNat = c.chipBase chip + o.toNat := by
  have hfits : c.chipBase chip + 64 ≤ 0x10000 :=
    c.window_fits (w := c.chipWindow chip) (by cases chip <;> simp [Params.windows])
  have := o.isLt
  rw [BitVec.toNat_ofNat, Nat.mod_eq_of_lt (by omega)]

theorem Config.regionOf_chipAddr (c : Config) (chip : Chip) (o : BitVec 6) :
    c.regionOf (c.chipBase chip + o.toNat) = .chip chip :=
  regionOf_of_inChip ((Params.inChip_iff _ _ _).2 ⟨by omega, by omega⟩)

/-! Decoding an encoded word. -/

variable {c : Config}

theorem decode_encode_rdChip (chip : Chip) (o : BitVec 6) :
    decode c.toParams (encode c.toParams (.rdChip chip o)) = .ok (.rdChip chip o) := by
  rw [encode, decode, decodeBus_busWord, c.toNat_chipAddr, c.regionOf_chipAddr]
  simp only [Params.chipOffset_chipAddr]

theorem decode_encode_wrChip (chip : Chip) (o : BitVec 6) (v : Byte) :
    decode c.toParams (encode c.toParams (.wrChip chip o v)) = .ok (.wrChip chip o v) := by
  rw [encode, decode, decodeBus_busWord, c.toNat_chipAddr, c.regionOf_chipAddr]
  simp only [Params.chipOffset_chipAddr]

theorem decode_encode_wrRom {a : Addr} {v : Byte} (h : (Instr.wrRom a v).wf c.toParams = true) :
    decode c.toParams (encode c.toParams (.wrRom a v)) = .ok (.wrRom a v) := by
  simp only [Instr.wf, Bool.or_eq_true, beq_iff_eq] at h
  rw [encode, decode, decodeBus_busWord]
  rcases h with (h | h) | h <;> rw [h]

theorem decode_encode_tick {n : Nat} (h : (Instr.tick n).wf c.toParams = true) :
    decode c.toParams (encode c.toParams (.tick n)) = .ok (.tick n) := by
  have hn : n < 2 ^ 32 := of_decide_eq_true h
  calc decode c.toParams (encode c.toParams (.tick n))
      = .ok (.tick (BitVec.ofNat 32 n).toNat) := decodeEvt_evtWord 1 _
    _ = .ok (.tick n) := by rw [BitVec.toNat_ofNat, Nat.mod_eq_of_lt hn]

theorem decode_encode_keyset (k : Byte) :
    decode c.toParams (encode c.toParams (.keyset k)) = .ok (.keyset k) := by
  have hk : (k.setWidth 32).extractLsb' 0 8 = k := by
    ext i hi
    simpa [Nat.lt_trans hi (by decide : 8 < 32)] using BitVec.getLsbD_eq_getElem hi
  calc decode c.toParams (encode c.toParams (.keyset k))
      = .ok (.keyset ((k.setWidth 32).extractLsb' 0 8)) := decodeEvt_evtWord 2 _
    _ = .ok (.keyset k) := by rw [hk]

theorem getLsbD_zero_ofBool_setWidth (b : Bool) :
    ((BitVec.ofBool b).setWidth 32).getLsbD 0 = b := by cases b <;> rfl

/-- Settles O2, by the format of the operation's word: a `BUS` word by the region of its address, a
`REG` word by its register select, an `EVT` word by its event select. -/
theorem decodeOfEncodeIsTheOperation : Obligations.DecodeOfEncodeIsTheOperation := by
  intro c i hwf
  cases i
  case rdChip chip o => exact decode_encode_rdChip chip o
  case wrChip chip o v => exact decode_encode_wrChip chip o v
  case wrRom => exact decode_encode_wrRom hwf
  case rdRomA | rdRomB | rdHimir | rdRam | wrRam | rdNone | wrNone =>
    have hregion := eq_of_beq hwf
    rw [encode, decode, decodeBus_busWord, hregion]
  case rdPad | rdPadKey | rdPbd | rdPbdSer | wrPbd | wrPbdSer =>
    rw [encode, decode, decodeReg_regWord]; rfl
  case rdPadd chip | rdPbdd chip | rdT4 chip | rdT5 chip | rdTcnt chip | rdTstat chip
      | wrPad chip _ | wrPadd chip _ | wrPbdd chip _ | wrTim1 chip _ | wrTim8 chip _
      | wrTim64 chip _ | wrTim1024 chip _ =>
    rw [encode, decode, decodeReg_regWord]; cases chip <;> rfl
  case reset => exact decodeEvt_evtWord 0 0
  case tick => exact decode_encode_tick hwf
  case keyset k => exact decode_encode_keyset k
  case modeset m =>
    exact (decodeEvt_evtWord 3 _).trans (by rw [getLsbD_zero_ofBool_setWidth]; rfl)
  case tapeset t =>
    exact (decodeEvt_evtWord 4 _).trans (by rw [getLsbD_zero_ofBool_setWidth]; rfl)

/-! What the decoder gives is well formed. -/

theorem wf_decodeRegRead (p : Params) (chip : Chip) (r : Nat) :
    (decodeRegRead chip r).wf p = true := by
  unfold decodeRegRead
  split <;> rfl

theorem wf_decodeRegWrite (p : Params) (chip : Chip) (r : Nat) (v : Byte) :
    (decodeRegWrite chip r v).wf p = true := by
  unfold decodeRegWrite
  split <;> rfl

theorem wf_decodeBus (p : Params) (word : BitVec 25) : (decodeBus p word).wf p = true := by
  simp only [decodeBus]
  split
  -- An operation on a chip carries no bus address.
  case h_7 | h_8 | h_9 | h_10 => rfl
  all_goals simp_all only [Instr.wf, beq_self_eq_true, Bool.true_or, Bool.or_true]

theorem wf_decodeReg (p : Params) (word : BitVec 16) : (decodeReg word).wf p = true := by
  unfold decodeReg
  split
  · exact wf_decodeRegWrite p _ _ _
  · exact wf_decodeRegRead p _ _

theorem wf_of_decodeEvt {p : Params} {word : BitVec 35} {i : Instr}
    (h : decodeEvt word = .ok i) : i.wf p = true := by
  simp only [decodeEvt] at h
  split at h <;> cases h
  case h_2 => exact decide_eq_true (BitVec.isLt _)
  all_goals rfl

/-- Settles O3, by the format of the word. -/
theorem decodedOperationIsWellFormed : Obligations.DecodedOperationIsWellFormed := by
  intro c word i h
  cases word with
  | bus w => cases h; exact wf_decodeBus c.toParams w
  | reg w => cases h; exact wf_decodeReg c.toParams w
  | evt w => exact wf_of_decodeEvt h

/-- Settles O4: a `REG` word decodes by its offset modulo 8, and a read without its data field. -/
theorem aliasBitsSelectNothing : Obligations.AliasBitsSelectNothing := by
  intro c chip w o o' d d' h
  constructor
  · rw [decode, decode, decodeReg_regWord, decodeReg_regWord, h]
  · rw [decode, decode, decodeReg_regWord, decodeReg_regWord, h, if_neg Bool.false_ne_true,
      if_neg Bool.false_ne_true]

/-! Single words. -/

/-- Settles O1: each word is a closed one, decoded by evaluation. -/
theorem sampleWordsDecode : Obligations.SampleWordsDecode := by
  refine ⟨rfl, rfl, rfl, rfl, rfl, rfl, rfl, rfl, rfl, rfl, rfl, rfl, rfl, rfl, rfl, rfl, rfl⟩

/-- Settles O25: the event select 1 makes the payload the operand of `TICK`. -/
theorem tickWordCarriesItsCount : Obligations.TickWordCarriesItsCount :=
  fun _ p => decodeEvt_evtWord 1 p

/-! The regions of the map. -/

/-- Settles O7: one lemma per window, and the one for an address outside all of them. -/
theorem windowsTakePrecedenceOverRam : Obligations.WindowsTakePrecedenceOverRam := by
  intro c a
  refine ⟨Config.regionOf_of_inRomA, Config.regionOf_of_inRomB, Config.regionOf_of_inHimir,
    fun _ => Config.regionOf_of_inChip, fun chip h => ?inFn, Config.regionOf_of_no_window⟩
  case inFn =>
    obtain ⟨w, hw, hcontains⟩ := Config.inFn_iff.1 h
    exact Config.regionOf_of_fnWindow hw hcontains

theorem Params.limit_le_of_regionOf_none {p : Params} {a : Nat} (h : p.regionOf a = .none) :
    p.ramSize.limit ≤ a := by
  unfold Params.regionOf at h
  repeat (split at h; · cases h)
  exact Nat.le_of_not_lt (of_decide_eq_false (Bool.eq_false_iff.2 ‹¬p.inRam a = true›))

/-- Settles O8: every 16-bit address is below the limit of full RAM. -/
theorem fullRamLeavesNothingUnmapped : Obligations.FullRamLeavesNothingUnmapped := by
  intro c a h
  have hlt : a.toNat < c.ramSize.limit := by
    rw [h]
    exact a.isLt
  refine ⟨fun hnone => ?mapped, fun hout => ?ram⟩
  case mapped => exact absurd hlt (Nat.not_lt.2 (Params.limit_le_of_regionOf_none hnone))
  case ram => rw [Config.regionOf_of_no_window hout, if_pos hlt]

/-- The local offset an address at most 63 above a base has is its distance from the base. -/
theorem base_add_offset {base a : Nat} (hle : base ≤ a) (hlt : a < base + 64) :
    base + (BitVec.ofNat 6 (a - base)).toNat = a := by
  rw [BitVec.toNat_ofNat, Nat.mod_eq_of_lt (by omega)]
  omega

/-- Settles O12: the region of the window picks the chip, and the offset is the distance from the
window's base. -/
theorem chipWindowsReachTheirChip : Obligations.ChipWindowsReachTheirChip := by
  intro s c a v
  refine ⟨fun h => ?chipWindow, fun w hw h => ?fnWindow⟩
  case chipWindow =>
    obtain ⟨hle, hlt⟩ := (Params.inChip_iff _ _ _).1 h
    refine ⟨s.cfg.chipOffset c a.toNat, base_add_offset hle hlt, ?_, ?_⟩ <;>
      rw [decode, decodeBus_busWord, Config.regionOf_of_inChip h]
  case fnWindow =>
    obtain ⟨hle, hlt⟩ := (Window.contains_iff w _).1 h
    have hsize := s.cfg.fnWindow_size hw
    have hoffset : s.cfg.fnOffset c a.toNat = BitVec.ofNat 6 (a.toNat - w.base) := by
      simp only [Params.fnOffset, hw, Option.map_some, Option.getD_some]
    refine ⟨s.cfg.fnOffset c a.toNat, ?_, ?_, ?_⟩
    · rw [hoffset, base_add_offset hle (by omega)]
    all_goals rw [decode, decodeBus_busWord, Config.regionOf_of_fnWindow hw h]

end Sys2Proof

namespace Sys2Proof.Machine

/-! Steps. -/

/-- A step whose next word decodes answers a next state. -/
theorem step_completes_of_ok {s : State} {word : Presented} {rest : List Presented} {i : Instr}
    (h : s.pending = word :: rest) (hd : decode s.cfg.toParams word = .ok i) :
    ∃ t, step s = .next t := by
  rw [step_of_ok h hd]
  exact exec_completes i _

theorem decodeEvt_ok_of_select_lt {word : BitVec 35} (h : (word.extractLsb' 32 3).toNat < 5) :
    ∃ i, decodeEvt word = .ok i := by
  unfold decodeEvt
  dsimp only
  generalize (word.extractLsb' 32 3).toNat = e at h
  match e, h with
  | 0, _ | 1, _ | 2, _ | 3, _ | 4, _ => exact ⟨_, rfl⟩

theorem decodeEvt_error_of_select_ge {word : BitVec 35}
    (h : 5 ≤ (word.extractLsb' 32 3).toNat) :
    decodeEvt word = .error (.eventSelect (word.extractLsb' 32 3)) := by
  unfold decodeEvt
  dsimp only
  split
  case h_6 => rfl
  all_goals omega

/-- Settles O5: `BUS` and `REG` words always decode, an `EVT` word when its select is below 5. -/
theorem everyWordRunsButInvalidEvents : Obligations.EveryWordRunsButInvalidEvents := by
  intro s rest
  refine ⟨fun w h => step_completes_of_ok h rfl, fun w h => step_completes_of_ok h rfl,
    fun w h hlt => ?validEvent, fun w h hge => ?invalidEvent⟩
  case validEvent =>
    obtain ⟨i, hi⟩ := decodeEvt_ok_of_select_lt hlt
    exact step_completes_of_ok h hi
  case invalidEvent => exact step_of_error h (decodeEvt_error_of_select_ge hge)

/-- Settles O6: the two cases of a step. -/
theorem stepRunsTheNextPresentedWord : Obligations.StepRunsTheNextPresentedWord :=
  fun _ => ⟨fun _ _ _ hpending hdecode => step_of_ok hpending hdecode, step_of_nil⟩

end Sys2Proof.Machine
end

section
/-! SUPPORT. Proofs: the register operations of the chips (spec/41_port_registers.md to
spec/44_serial_shift.md), one at a time. -/

namespace Sys2Proof

/-- A `REG` word decodes by the low three bits `r` of its offset, whatever the other three, `m`
(rules R95, R96). -/
theorem decode_regWord_append (p : Params) (chip : Chip) (w : Bool) (m r : BitVec 3) (d : Byte) :
    decode p (.reg (regWord chip w (m ++ r) d)) =
      .ok (if w then decodeRegWrite chip r.toNat d else decodeRegRead chip r.toNat) := by
  rw [decode, decodeReg_regWord, alias_append_mod]

end Sys2Proof

namespace Sys2Proof.Machine

/-- Settles O13: a chip access runs the operation the decoder of `REG` words names. -/
theorem chipAccessIsTheRegisterOperation : Obligations.ChipAccessIsTheRegisterOperation := by
  intro s c o v
  constructor
  · obtain ⟨t, ht⟩ := exec_completes (.rdChip c o) s
    exact ⟨_, t, congrArg Except.ok (decodeReg_regWord c false o v), ht, exec_rdChip s c o ▸ ht⟩
  · obtain ⟨t, ht⟩ := exec_completes (.wrChip c o v) s
    exact ⟨_, t, congrArg Except.ok (decodeReg_regWord c true o v), ht, exec_wrChip s c o v ▸ ht⟩

/-! The port registers. -/

/-- Settles O16: each word decodes by its register select, and each read answers its register. -/
theorem portReadsReturnTheStoredByte : Obligations.PortReadsReturnTheStoredByte := by
  intro s m d
  refine ⟨⟨?_, exec_rdPad s⟩, fun c => ⟨?_, exec_rdPadd s c⟩, ⟨?_, exec_rdPbd s⟩,
    fun c => ⟨?_, exec_rdPbdd s c⟩⟩
  all_goals exact decode_regWord_append _ _ false m _ d

/-- Settles O17: the scan, which `RD_PAD_KEY` answers, does not read `PAD[SYS]`. -/
theorem portWritesStoreTheByte : Obligations.PortWritesStoreTheByte := by
  intro s m v
  refine ⟨fun c => ⟨?_, ?_, ?_⟩, exec_wrPad s .app v, exec_wrPad s .sys v, exec_wrPadd s .app v,
    exec_wrPadd s .sys v, exec_wrPbdd s .app v, exec_wrPbdd s .sys v, _, exec_rdPadKey s,
    exec_rdPadKey _⟩
  all_goals exact decode_regWord_append _ c true m _ v

/-- Settles O18: the `APP` write is a store into `PBD` alone. -/
theorem appSecondaryWriteOnlyStores : Obligations.AppSecondaryWriteOnlyStores :=
  fun s m v => ⟨decode_regWord_append _ .app true m 2#3 v, exec_wrPbd s v⟩

/-- The port registers of a chip, by register select 0 to 3. -/
def ChipRegs.port (x : ChipRegs) : Nat → Byte
  | 0 => x.pad
  | 1 => x.padd
  | 2 => x.pbd
  | _ => x.pbdd

/-- A chip write of register select `r` below 4 stores the byte in that port register and returns
nothing. -/
theorem exec_decodeRegWrite_port (s : State) (c : Chip) {r : Nat} (v : Byte) (hr : r < 4) :
    ∃ t, exec (decodeRegWrite c r v) s = .next t ∧ (t.chip c).port r = v ∧ t.reads = s.reads := by
  match r, c, hr with
  | 0, c, _ => exact ⟨_, exec_wrPad s c v, by simp [ChipRegs.port], rfl⟩
  | 1, c, _ => exact ⟨_, exec_wrPadd s c v, by simp [ChipRegs.port], rfl⟩
  | 2, .app, _ => exact ⟨_, exec_wrPbd s v, rfl, rfl⟩
  | 2, .sys, _ => exact ⟨_, exec_wrPbdSer s v, by simp [ChipRegs.port], by simp⟩
  | 3, c, _ => exact ⟨_, exec_wrPbdd s c v, by simp [ChipRegs.port], rfl⟩

/-- A chip read of register select `r` below 4 returns that port register, but for `PAD[SYS]`. -/
theorem exec_decodeRegRead_port (s : State) (c : Chip) {r : Nat} (hr : r < 4)
    (hkey : c = .sys → r ≠ 0) :
    ∃ t, exec (decodeRegRead c r) s = .next t ∧ t.reads = s.reads ++ [(s.chip c).port r] := by
  match r, c, hr with
  | 0, .app, _ => exact ⟨_, exec_rdPad s, rfl⟩
  | 0, .sys, _ => exact absurd rfl (hkey rfl)
  | 1, c, _ => exact ⟨_, exec_rdPadd s c, rfl⟩
  | 2, .app, _ => exact ⟨_, exec_rdPbd s, rfl⟩
  | 2, .sys, _ => exact ⟨_, exec_rdPbdSer s, rfl⟩
  | 3, c, _ => exact ⟨_, exec_rdPbdd s c, rfl⟩

/-- Settles O19: a chip access is the register operation of its offset modulo 8, and a port register
reads back what was stored in it. -/
theorem portRegistersAreFlipFlops : Obligations.PortRegistersAreFlipFlops := by
  intro s c o o' v hport halias hkey
  obtain ⟨t, ht, hstored, hquiet⟩ := exec_decodeRegWrite_port s c v hport
  obtain ⟨u, hu, hread⟩ := exec_decodeRegRead_port t c hport hkey
  refine ⟨t, u, by rw [exec_wrChip, ht], by rw [exec_rdChip, halias, hu], ?_⟩
  rw [hread, hstored, hquiet]

/-! The registers of the interval timer. -/

/-- Settles O20: each write is `TimerReset` with the divisor of its register select. -/
theorem timerWritesArmTheTimer : Obligations.TimerWritesArmTheTimer := by
  intro s m v
  refine ⟨fun c => ⟨?_, ?_, ?_, ?_⟩, exec_wrTim1 s .app v, exec_wrTim1 s .sys v,
    exec_wrTim8 s .app v, exec_wrTim8 s .sys v, exec_wrTim64 s .app v, exec_wrTim64 s .sys v,
    exec_wrTim1024 s .app v, exec_wrTim1024 s .sys v⟩
  all_goals exact decode_regWord_append _ c true m _ v

/-- Settles O21, by the two cases of a count read. -/
theorem countReadReArmsATimedOutTimer : Obligations.CountReadReArmsATimedOutTimer := by
  intro s m d
  refine ⟨fun c => decode_regWord_append _ c false m 6#3 d, exec_rdTcnt_running s,
    exec_rdTcnt_timedOut s .app, exec_rdTcnt_timedOut s .sys, fun c hlatched => ?countBefore⟩
  case countBefore =>
    cases h : (s.chip c).timer.timeout with
    | false => exact ⟨_, exec_rdTcnt_running s c h, rfl⟩
    | true => exact ⟨_, exec_rdTcnt_timedOut s c h, by simp [hlatched h]⟩

/-- Settles O22: the answer is the status byte of the latch. -/
theorem statusReadShowsTheTimeoutLatch : Obligations.StatusReadShowsTheTimeoutLatch :=
  fun s m d c => ⟨decode_regWord_append _ c false m 7#3 d, exec_rdTstat s c⟩

/-- Settles O23: both reads answer the next free value. -/
theorem readsOfOffsetsFourAndFiveChangeNothing :
    Obligations.ReadsOfOffsetsFourAndFiveChangeNothing :=
  fun s m d c => ⟨decode_regWord_append _ c false m 4#3 d, decode_regWord_append _ c false m 5#3 d,
    ⟨_, exec_rdT4 s c⟩, ⟨_, exec_rdT5 s c⟩⟩

/-! The keyboard. -/

/-- The scan row is bits 4:1 of the secondary data register (rule R191). -/
theorem scanRow_eq_extractLsb' (pbd : Byte) : scanRow pbd = (pbd.extractLsb' 1 4).toNat := by
  rw [scanRow, BitVec.toNat_and, BitVec.toNat_ushiftRight, BitVec.extractLsb'_toNat]
  exact Nat.and_two_pow_sub_one_eq_mod (pbd.toNat >>> 1) 4

/-- Settles O31: the read answers the scan, of the row that bits 4:1 give. -/
theorem sysPrimaryReadReturnsTheScan : Obligations.SysPrimaryReadReturnsTheScan := by
  intro s m d
  refine ⟨decode_regWord_append _ .sys false m 0#3 d, ?_⟩
  rw [exec_rdPadKey, scanRow_eq_extractLsb', State.answer]

/-! A row below 3 answers a key `k` if and only if it is row `k / 7`, and then with pattern
`k % 7` (rules R193, R194). -/

section
variable (keypat : Vector Byte 7) (mode : Bool) {key : Byte} {row : Nat}

theorem scan_own_row (hrow : row < 3) (h : row = key.toNat / 7) :
    scan keypat row key mode = keypat[key.toNat % 7] := by
  match row, hrow with
  | 0, _ => exact scan_row0_eq_getElem (i := ⟨key.toNat % 7, by omega⟩) (by simp only; omega)
  | 1, _ => exact scan_row1_eq_getElem (i := ⟨key.toNat % 7, by omega⟩) (by simp only; omega)
  | 2, _ => exact scan_row2_eq_getElem (i := ⟨key.toNat % 7, by omega⟩) (by simp only; omega)

theorem scan_other_row (hrow : row < 3) (h : row ≠ key.toNat / 7) :
    scan keypat row key mode = 0xFF := by
  match row, hrow with
  | 0, _ => exact scan_row0_none keypat key mode (by omega)
  | 1, _ => exact scan_row1_none keypat key mode (by omega)
  | 2, _ => exact scan_row2_none keypat key mode (by omega)

end

theorem scan_ne_ff_iff (c : Config) (mode : Bool) {key : Byte} {row : Nat} (hrow : row < 3) :
    scan c.keypat row key mode ≠ 0xFF ↔ row = key.toNat / 7 := by
  constructor
  · intro h
    exact Decidable.byContradiction fun hother => h (scan_other_row c.keypat mode hrow hother)
  · intro h
    rw [scan_own_row c.keypat mode hrow h]
    exact c.keypat_ne_ff (by omega)

/-- Settles O32: the row is `key / 7` and, the patterns being distinct, the pattern `key % 7`. -/
theorem rowAndPatternDetermineTheKey : Obligations.RowAndPatternDetermineTheKey := by
  intro c key key' mode row _ hrow
  refine ⟨scan_ne_ff_iff c mode hrow, fun hanswers hsame => ?_⟩
  have hdiv : row = key.toNat / 7 := (scan_ne_ff_iff c mode hrow).1 hanswers
  have hdiv' : row = key'.toNat / 7 := (scan_ne_ff_iff c mode hrow).1 (hsame ▸ hanswers)
  rw [scan_own_row c.keypat mode hrow hdiv, scan_own_row c.keypat mode hrow hdiv'] at hsame
  have hmod : key'.toNat % 7 = key.toNat % 7 := c.keypat_inj (by omega) (by omega) hsame
  exact BitVec.eq_of_toNat_eq (by omega)

/-! The serial line. -/

/-- Settles O33: the read answers the stored byte and sets the one latch. -/
theorem sysSecondaryReadSetsBitReady : Obligations.SysSecondaryReadSetsBitReady :=
  fun s m d => ⟨decode_regWord_append _ .sys false m 2#3 d, exec_rdPbdSer s⟩

section
variable {s : State} {v : Byte}

theorem exec_wrPbdSer_starts (ha : s.ser.active = false) (hv : serialBit v = false) :
    exec (.wrPbdSer v) s = .next ((s.setPbd .sys v).setSer Serial.started) := by
  simp [State.serialWrite, ha, hv]

theorem exec_wrPbdSer_stays_idle (ha : s.ser.active = false) (hv : serialBit v = true) :
    exec (.wrPbdSer v) s = .next (s.setPbd .sys v) := by
  simp [State.serialWrite, ha, hv]

theorem exec_wrPbdSer_not_ready (ha : s.ser.active = true) (hr : s.ser.bitready = false) :
    exec (.wrPbdSer v) s = .next (s.setPbd .sys v) := by
  simp [State.serialWrite, Serial.qualifies, ha, hr]

theorem exec_wrPbdSer_consumes (ha : s.ser.active = true) (hr : s.ser.bitready = true)
    (hn : s.ser.bitcnt ≠ 8) :
    exec (.wrPbdSer v) s =
      .next ((s.setPbd .sys v).setSer (s.ser.consumed (serialBit v))) := by
  simp [State.serialWrite, Serial.qualifies, ha, hr, hn]

theorem exec_wrPbdSer_emits (ha : s.ser.active = true) (hr : s.ser.bitready = true)
    (hn : s.ser.bitcnt = 8) :
    exec (.wrPbdSer v) s =
      .next (((s.setPbd .sys v).emit s.ser.acc).setSer { s.ser with active := false }) := by
  simp [State.serialWrite, Serial.qualifies, ha, hr, hn]

end

/-- The bit that is taken in stands at bit 7. -/
theorem setWidth_ofBool_shiftLeft_seven (b : Bool) :
    (BitVec.ofBool b).setWidth 8 <<< 7 = (if b then 0x80 else 0x00 : Byte) := by cases b <;> rfl

/-- Settles O34, by the cases of a serial write that emits nothing. -/
theorem serialWriteStartsOrTakesABit : Obligations.SerialWriteStartsOrTakesABit := by
  intro s m v
  refine ⟨decode_regWord_append _ .sys true m 2#3 v, exec_wrPbdSer_starts,
    exec_wrPbdSer_stays_idle, exec_wrPbdSer_not_ready, fun ha hr hn => ?consumes⟩
  case consumes =>
    rw [exec_wrPbdSer_consumes ha hr hn, Serial.consumed, setWidth_ofBool_shiftLeft_seven, ha]
    rfl

theorem State.emit_console {s : State} (b : Byte) (h : s.tapew = false) :
    s.emit b = { s with txcon := s.txcon ++ [b] } := by
  rw [State.emit, h, if_neg Bool.false_ne_true]

theorem State.emit_tape {s : State} {b : Byte} (h : s.tapew = true) (hb : b ≠ 0) :
    s.emit b = { s with txtape := s.txtape ++ [b] } := by
  rw [State.emit, if_pos h, if_neg hb]

theorem State.emit_tape_zero {s : State} {b : Byte} (h : s.tapew = true) (hb : b = 0) :
    s.emit b = s := by
  rw [State.emit, if_pos h, if_pos hb]

/-- Settles O35: the write emits, and the three outcomes are those of `Emit`. -/
theorem ninthQualifyingWriteEmits : Obligations.NinthQualifyingWriteEmits := by
  intro s v ha hr hn
  rw [exec_wrPbdSer_emits ha hr hn]
  refine ⟨fun htape => ?console, fun htape hb => ?tape, fun htape hb => ?zeroByte⟩
  case console => rw [State.emit_console (s := s.setPbd .sys v) _ htape]; rfl
  case tape => rw [State.emit_tape (s := s.setPbd .sys v) htape hb]; rfl
  case zeroByte => rw [State.emit_tape_zero (s := s.setPbd .sys v) htape hb]; rfl

/-! Reset. -/

/-- Settles O38: power-on gives every element its value. -/
theorem resetGivesThePowerOnState : Obligations.ResetGivesThePowerOnState := by
  intro s p
  refine ⟨decodeEvt_evtWord 0 p, exec_reset s, fun t ht a => ?ramReads, exec_reset _⟩
  case ramReads =>
    cases ht
    exact State.powerOn_ramByte s a

end Sys2Proof.Machine
end

section
/-! SUPPORT. Proofs: the whole machine. `Effect` says once what an operation can do to the state;
the frames and the invariant of the block are read off it. -/

namespace Sys2Proof

/-! What the classes of operations have to do with each other. -/

namespace Instr

variable {i : Instr} {c d : Chip}

theorem isRead_of_readsSerialLine (h : i.readsSerialLine = true) : i.isRead = true := by
  cases i
  case rdPbdSer | rdChip => rfl
  all_goals cases h

theorem chipAddressed_of_readsSerialLine (h : i.readsSerialLine = true) :
    i.chipAddressed = some .sys := by
  cases i
  case rdPbdSer => rfl
  case rdChip c o =>
    cases c with
    | app => cases h
    | sys => rfl
  all_goals cases h

theorem isRead_of_writesSerialLine (h : i.writesSerialLine = true) : i.isRead = false := by
  cases i
  case wrPbdSer | wrChip => rfl
  all_goals cases h

theorem chipAddressed_of_writesSerialLine (h : i.writesSerialLine = true) :
    i.chipAddressed = some .sys := by
  cases i
  case wrPbdSer => rfl
  case wrChip c o v =>
    cases c with
    | app => cases h
    | sys => rfl
  all_goals cases h

theorem isRead_of_readsCountOf (h : i.readsCountOf c = true) : i.isRead = true := by
  cases i
  case rdTcnt | rdChip => rfl
  all_goals cases h

theorem chipAddressed_of_readsCountOf (h : i.readsCountOf c = true) :
    i.chipAddressed = some c := by
  cases i
  case rdTcnt d => exact congrArg some (eq_of_beq h)
  case rdChip d o => exact congrArg some (eq_of_beq (Bool.and_eq_true_iff.1 h).1)
  all_goals cases h

/-- One read is of one register: offset 2 or offset 6. -/
theorem readsSerialLine_of_readsCountOf (h : i.readsCountOf c = true) :
    i.readsSerialLine = false := by
  cases i
  case rdTcnt => rfl
  case rdChip d o =>
    have hselect := eq_of_beq (Bool.and_eq_true_iff.1 h).2
    cases d
    case app => rfl
    case sys => simp [readsSerialLine, hselect]
  all_goals cases h

theorem readsSerialLine_of_not_isRead (h : i.isRead = false) : i.readsSerialLine = false :=
  Bool.eq_false_iff.2 fun hser => by simp [isRead_of_readsSerialLine hser] at h

theorem writesSerialLine_of_isRead (h : i.isRead = true) : i.writesSerialLine = false :=
  Bool.eq_false_iff.2 fun hser => by simp [isRead_of_writesSerialLine hser] at h

end Instr

/-! The classes of the register operations a chip access decodes to. -/

theorem chipAddressed_decodeRegRead (c : Chip) (r : Nat) :
    (decodeRegRead c r).chipAddressed = some c := by
  unfold decodeRegRead
  split <;> rfl

theorem chipAddressed_decodeRegWrite (c : Chip) (r : Nat) (v : Byte) :
    (decodeRegWrite c r v).chipAddressed = some c := by
  unfold decodeRegWrite
  split <;> rfl

theorem readsSerialLine_decodeRegRead (c : Chip) (r : Nat) :
    (decodeRegRead c r).readsSerialLine = (c == .sys && r == 2) := by
  match r with
  | 0 | 1 | 2 | 3 | 4 | 5 | 6 | _ + 7 => cases c <;> rfl

theorem readsCountOf_decodeRegRead (c d : Chip) (r : Nat) :
    (decodeRegRead c r).readsCountOf d = (c == d && r == 6) := by
  match r with
  | 0 | 1 | 2 | 3 | 4 | 5 | 6 | _ + 7 => cases c <;> cases d <;> rfl

theorem writesSerialLine_decodeRegWrite (c : Chip) (r : Nat) (v : Byte) :
    (decodeRegWrite c r v).writesSerialLine = (c == .sys && r == 2) := by
  match r with
  | 0 | 1 | 2 | 3 | 4 | 5 | 6 | _ + 7 => cases c <;> rfl

theorem readsSerialLine_rdChip (c : Chip) (o : BitVec 6) :
    (Instr.rdChip c o).readsSerialLine = (decodeRegRead c (o.toNat % 8)).readsSerialLine := by
  rw [readsSerialLine_decodeRegRead]
  cases c <;> rfl

theorem readsCountOf_rdChip (c d : Chip) (o : BitVec 6) :
    (Instr.rdChip c o).readsCountOf d = (decodeRegRead c (o.toNat % 8)).readsCountOf d := by
  rw [readsCountOf_decodeRegRead]
  rfl

theorem writesSerialLine_wrChip (c : Chip) (o : BitVec 6) (v : Byte) :
    (Instr.wrChip c o v).writesSerialLine =
      (decodeRegWrite c (o.toNat % 8) v).writesSerialLine := by
  rw [writesSerialLine_decodeRegWrite]
  cases c <;> rfl

end Sys2Proof

namespace Sys2Proof.Machine

/-! What an operation can do to the state. -/

/-- Everything an operation can do to the state, by the way it does it. -/
inductive Effect (s : State) (i : Instr) : State → Prop
  /-- a read without side effect; `draws` moves when the byte is a free value -/
  | fetched (b : Byte) (draws : Nat) (hread : i.isRead = true) (hser : i.readsSerialLine = false)
      (hcnt : ∀ c, i.readsCountOf c = true → (s.chip c).timer.timeout = false) :
      Effect s i { s with reads := s.reads ++ [b], draws := draws }
  /-- a read of offset 2 of `SYS` -/
  | serialRead (hser : i.readsSerialLine = true) :
      Effect s i ((s.answer s.sys.pbd).setSer { s.ser with bitready := true })
  /-- a read of the count of a timed-out timer -/
  | reArmed (c : Chip) (hcnt : i.readsCountOf c = true) (ht : (s.chip c).timer.timeout = true) :
      Effect s i ((s.answer 0).setTimer c
        (timerReset (s.chip c).timer.prescale (s.chip c).timer.start))
  /-- a write to ROM or to an unmapped address -/
  | dropped (hread : i.isRead = false) (hchip : i.chipAddressed = none) : Effect s i s
  /-- a write of RAM -/
  | ramWritten (a : Addr) (v : Byte) (hi : i = .wrRam a v) : Effect s i (s.setRamByte a.toNat v)
  /-- a write of a port register or of a timer of one chip, but for offset 2 of `SYS` -/
  | chipWritten (c : Chip) (x : ChipRegs) (hchip : i.chipAddressed = some c)
      (hread : i.isRead = false) (hser : i.writesSerialLine = false)
      (ht : x.timer = (s.chip c).timer ∨
        ∃ p ∈ [1, 8, 64, 1024], ∃ v, x.timer = timerReset p v) :
      Effect s i (s.setChip c x)
  /-- a write of offset 2 of `SYS` -/
  | serialWritten (v : Byte) (hser : i.writesSerialLine = true) :
      Effect s i ((s.setPbd .sys v).serialWrite (serialBit v))
  /-- `RESET` -/
  | poweredOn (hi : i = .reset) : Effect s i s.powerOn
  /-- `TICK` -/
  | ticked (n : Nat) (hi : i = .tick n) :
      Effect s i ((s.setTimer .app (timerUpdate n s.app.timer)).setTimer .sys
        (timerUpdate n s.sys.timer))
  /-- `KEYSET` -/
  | keySet (k : Byte) (hi : i = .keyset k) : Effect s i { s with key := k }
  /-- `MODESET` -/
  | modeSet (m : Bool) (hi : i = .modeset m) : Effect s i { s with sermode := m }
  /-- `TAPESET` -/
  | tapeSet (x : Bool) (hi : i = .tapeset x) : Effect s i { s with tapew := x }

/-- What a read can do (rule R66). -/
theorem Effect.of_read {s t : State} {i : Instr} (h : Effect s i t) (hread : i.isRead = true) :
    (∃ b draws, i.readsSerialLine = false ∧
      (∀ c, i.readsCountOf c = true → (s.chip c).timer.timeout = false) ∧
      t = { s with reads := s.reads ++ [b], draws := draws }) ∨
    (i.readsSerialLine = true ∧
      t = (s.answer s.sys.pbd).setSer { s.ser with bitready := true }) ∨
    (∃ c, i.readsCountOf c = true ∧ (s.chip c).timer.timeout = true ∧
      t = (s.answer 0).setTimer c
        (timerReset (s.chip c).timer.prescale (s.chip c).timer.start)) := by
  cases h with
  | fetched b draws _ hser hcnt => exact .inl ⟨b, draws, hser, hcnt, rfl⟩
  | serialRead hser => exact .inr (.inl ⟨hser, rfl⟩)
  | reArmed c hcnt ht => exact .inr (.inr ⟨c, hcnt, ht, rfl⟩)
  | dropped hother | chipWritten _ _ _ hother => exact absurd hread (hother ▸ Bool.false_ne_true)
  | serialWritten _ hser =>
    exact absurd hread (Instr.isRead_of_writesSerialLine hser ▸ Bool.false_ne_true)
  | ramWritten _ _ hi | poweredOn hi | ticked _ hi | keySet _ hi | modeSet _ hi | tapeSet _ hi =>
    subst hi
    cases hread

/-- What a write of a chip register can do. -/
theorem Effect.of_chipWrite {s t : State} {i : Instr} {c : Chip} (h : Effect s i t)
    (hread : i.isRead = false) (hchip : i.chipAddressed = some c) :
    (∃ x, i.writesSerialLine = false ∧
      (x.timer = (s.chip c).timer ∨ ∃ p ∈ [1, 8, 64, 1024], ∃ v, x.timer = timerReset p v) ∧
      t = s.setChip c x) ∨
    (∃ v, i.writesSerialLine = true ∧ t = (s.setPbd .sys v).serialWrite (serialBit v)) := by
  cases h with
  | chipWritten d x hd _ hser ht =>
    obtain rfl : d = c := Option.some.inj (hd.symm.trans hchip)
    exact .inl ⟨x, hser, ht, rfl⟩
  | serialWritten v hser => exact .inr ⟨v, hser, rfl⟩
  | fetched _ _ hother => exact absurd hother (hread ▸ Bool.false_ne_true)
  | serialRead hser =>
    exact absurd (Instr.isRead_of_readsSerialLine hser) (hread ▸ Bool.false_ne_true)
  | reArmed _ hcnt =>
    exact absurd (Instr.isRead_of_readsCountOf hcnt) (hread ▸ Bool.false_ne_true)
  | dropped _ hnone => exact absurd (hnone.symm.trans hchip) nofun
  | ramWritten _ _ hi | poweredOn hi | ticked _ hi | keySet _ hi | modeSet _ hi | tapeSet _ hi =>
    subst hi
    cases hchip

/-- A chip read has the effect of the register read its offset names. -/
theorem Effect.rdChip {s t : State} {c : Chip} {o : BitVec 6}
    (h : Effect s (decodeRegRead c (o.toNat % 8)) t) : Effect s (.rdChip c o) t := by
  rcases h.of_read (isRead_decodeRegRead _ _) with ⟨b, draws, hser, hcnt, rfl⟩ | ⟨hser, rfl⟩ |
    ⟨d, hcnt, ht, rfl⟩
  · exact .fetched b draws rfl ((readsSerialLine_rdChip c o).trans hser)
      fun d hd => hcnt d ((readsCountOf_rdChip c d o).symm.trans hd)
  · exact .serialRead ((readsSerialLine_rdChip c o).trans hser)
  · exact .reArmed d ((readsCountOf_rdChip c d o).trans hcnt) ht

/-- A chip write has the effect of the register write its offset names. -/
theorem Effect.wrChip {s t : State} {c : Chip} {o : BitVec 6} {v : Byte}
    (h : Effect s (decodeRegWrite c (o.toNat % 8) v) t) : Effect s (.wrChip c o v) t := by
  rcases h.of_chipWrite (isRead_decodeRegWrite _ _ _) (chipAddressed_decodeRegWrite _ _ _) with
    ⟨x, hser, ht, rfl⟩ | ⟨w, hser, rfl⟩
  · exact .chipWritten c x rfl rfl ((writesSerialLine_wrChip c o v).trans hser) ht
  · exact .serialWritten w ((writesSerialLine_wrChip c o v).trans hser)

/-- Every next state comes about by an `Effect`. -/
theorem exec_effect {i : Instr} {s t : State} (h : exec i s = .next t) : Effect s i t := by
  refine exec_next_cases (fun i s t => Effect s i t) ?running ?timedOut ?plain
    (fun _ _ _ _ => Effect.rdChip) (fun _ _ _ _ _ => Effect.wrChip) i s t h
  case running =>
    intro c s ht
    exact .fetched _ s.draws rfl rfl fun d hd => eq_of_beq hd ▸ ht
  case timedOut =>
    intro c s ht
    exact .reArmed c (beq_self_eq_true c) ht
  case plain =>
    intro i s t h hTcnt hRd hWr
    cases i
    case rdTcnt c => exact absurd rfl (hTcnt c)
    case rdChip c o => exact absurd rfl (hRd c o)
    case wrChip c o v => exact absurd rfl (hWr c o v)
    all_goals cases h
    case rdPbdSer => exact .serialRead rfl
    case wrRom | wrNone => exact .dropped rfl rfl
    case wrRam a v => exact .ramWritten a v rfl
    case wrPad | wrPadd | wrPbd | wrPbdd => exact .chipWritten _ _ rfl rfl rfl (.inl rfl)
    case wrTim1 | wrTim8 | wrTim64 | wrTim1024 =>
      exact .chipWritten _ _ rfl rfl rfl (.inr ⟨_, by decide, _, rfl⟩)
    case wrPbdSer v => exact .serialWritten v rfl
    case reset => exact .poweredOn rfl
    case tick n => exact .ticked n rfl
    case keyset k => exact .keySet k rfl
    case modeset m => exact .modeSet m rfl
    case tapeset x => exact .tapeSet x rfl
    all_goals exact .fetched _ _ rfl rfl nofun

end Sys2Proof.Machine
end

section
/-! SUPPORT. Proofs: what operations leave alone, and the invariant of the block, read off
`Effect`. -/

namespace Sys2Proof.Machine

variable {i : Instr} {s t : State}

/-! Reads. -/

/-- But for RAM, a read leaves every field alone that is neither a timer nor the shift register. -/
theorem Effect.read_frame (h : Effect s i t) (hread : i.isRead = true) :
    t.key = s.key ∧ t.sermode = s.sermode ∧ t.tapew = s.tapew ∧ t.txcon = s.txcon ∧
      t.txtape = s.txtape ∧
      ∀ c, (t.chip c).pad = (s.chip c).pad ∧ (t.chip c).padd = (s.chip c).padd ∧
        (t.chip c).pbd = (s.chip c).pbd ∧ (t.chip c).pbdd = (s.chip c).pbdd := by
  rcases h.of_read hread with ⟨b, draws, -, -, rfl⟩ | ⟨-, rfl⟩ | ⟨d, -, -, rfl⟩
  · exact ⟨rfl, rfl, rfl, rfl, rfl, fun c => by cases c <;> exact ⟨rfl, rfl, rfl, rfl⟩⟩
  · exact ⟨rfl, rfl, rfl, rfl, rfl, fun c => ⟨rfl, rfl, rfl, rfl⟩⟩
  · refine ⟨rfl, rfl, rfl, rfl, rfl, fun c => ?_⟩
    by_cases hcd : c = d
    · subst hcd
      simp
    · simp [State.setTimer_chip_other _ _ _ _ hcd]

theorem Effect.read_ser (h : Effect s i t) (hread : i.isRead = true) :
    t.ser = if i.readsSerialLine then { s.ser with bitready := true } else s.ser := by
  rcases h.of_read hread with ⟨b, draws, hser, -, rfl⟩ | ⟨hser, rfl⟩ | ⟨d, hcnt, -, rfl⟩
  · simp [hser]
  · simp [hser]
  · simp [Instr.readsSerialLine_of_readsCountOf hcnt]

/-- One count read is of one chip. -/
theorem readsCountOf_inj {c d : Chip} (hc : i.readsCountOf c = true)
    (hd : i.readsCountOf d = true) : c = d :=
  Option.some.inj ((Instr.chipAddressed_of_readsCountOf hc).symm.trans
    (Instr.chipAddressed_of_readsCountOf hd))

theorem Effect.read_timer (h : Effect s i t) (hread : i.isRead = true) (c : Chip) :
    (t.chip c).timer =
      if i.readsCountOf c ∧ (s.chip c).timer.timeout then
        timerReset (s.chip c).timer.prescale (s.chip c).timer.start
      else (s.chip c).timer := by
  rcases h.of_read hread with ⟨b, draws, -, hcnt, rfl⟩ | ⟨hser, rfl⟩ | ⟨d, hcnt, ht, rfl⟩
  · rw [if_neg fun ⟨hc, ht⟩ => by simp [hcnt c hc] at ht]
    cases c <;> rfl
  · rw [if_neg fun ⟨hc, _⟩ => by simp [Instr.readsSerialLine_of_readsCountOf hc] at hser]
    rfl
  · by_cases hcd : c = d
    · subst hcd
      simp [hcnt, ht]
    · rw [if_neg fun ⟨hc, _⟩ => hcd (readsCountOf_inj hc hcnt),
        State.setTimer_chip_other _ _ _ _ hcd]
      rfl

/-- A read does not write the memory. -/
theorem ramAfter_of_isRead (s : State) (hread : i.isRead = true) : ramAfter s i = s.ram := by
  cases i
  case wrRam | reset => cases hread
  all_goals rfl

/-- Settles O41: the frame of a read, its one effect on the shift register and its one on a
timer. -/
theorem readsChangeOnlyTheirSideEffect : Obligations.ReadsChangeOnlyTheirSideEffect := by
  intro i s t hread h
  have heff := exec_effect h
  obtain ⟨hcfg, hram⟩ := exec_cfg_ram h
  rw [ramAfter_of_isRead s hread] at hram
  obtain ⟨hkey, hsermode, htapew, htxcon, htxtape, hports⟩ := heff.read_frame hread
  refine ⟨hram, State.ramByte_congr hcfg hram, hkey, hsermode, htapew, htxcon, htxtape,
    heff.read_ser hread, fun c => ?_⟩
  obtain ⟨hpad, hpadd, hpbd, hpbdd⟩ := hports c
  exact ⟨hpad, hpadd, hpbd, hpbdd, heff.read_timer hread c⟩

/-! The parameters, the memory and the host inputs. -/

theorem Effect.pending_eq (h : Effect s i t) : t.pending = s.pending := by
  cases h with
  | serialWritten => exact State.serialWrite_pending _ _
  | _ => rfl

/-- Settles O40: no effect touches the parameters or the words pending. -/
theorem noOperationChangesTheParameters : Obligations.NoOperationChangesTheParameters := by
  intro i s t h
  obtain ⟨hcfg, -⟩ := exec_cfg_ram h
  exact ⟨hcfg, (exec_effect h).pending_eq, fun a => by rw [hcfg]⟩

/-- Settles O42: `WR_RAM` writes its own address alone. -/
theorem onlyRamWritesChangeMemory : Obligations.OnlyRamWritesChangeMemory :=
  fun _ _ _ _ => exec_ramByte_of_not_written

theorem Effect.key_eq (h : Effect s i t) (hi : ∀ k, i ≠ .keyset k) (hreset : i ≠ .reset) :
    t.key = s.key := by
  cases h with
  | serialWritten => exact State.serialWrite_key _ _
  | keySet k hk => exact absurd hk (hi k)
  | poweredOn hr => exact absurd hr hreset
  | _ => rfl

theorem Effect.sermode_eq (h : Effect s i t) (hi : ∀ m, i ≠ .modeset m) (hreset : i ≠ .reset) :
    t.sermode = s.sermode := by
  cases h with
  | serialWritten => exact State.serialWrite_sermode _ _
  | modeSet m hm => exact absurd hm (hi m)
  | poweredOn hr => exact absurd hr hreset
  | _ => rfl

theorem Effect.tapew_eq (h : Effect s i t) (hi : ∀ x, i ≠ .tapeset x) (hreset : i ≠ .reset) :
    t.tapew = s.tapew := by
  cases h with
  | serialWritten => exact State.serialWrite_tapew _ _
  | tapeSet x hx => exact absurd hx (hi x)
  | poweredOn hr => exact absurd hr hreset
  | _ => rfl

/-- Settles O44: each input by its own frame; an input operation writes its input alone. -/
theorem hostInputsBelongToTheHost : Obligations.HostInputsBelongToTheHost := by
  intro i s t h
  have heff := exec_effect h
  refine ⟨heff.key_eq, heff.sermode_eq, heff.tapew_eq, ?inputs⟩
  case inputs =>
    rintro (⟨k, rfl⟩ | ⟨m, rfl⟩ | ⟨x, rfl⟩) <;> cases h <;> exact ⟨rfl, rfl, rfl, rfl, rfl, rfl⟩

/-! The timers. -/

theorem State.serialWrite_chip (s : State) (b : Bool) (c : Chip) :
    (s.serialWrite b).chip c = s.chip c := by cases c <;> simp

/-- Everything an operation can do to a timer. -/
theorem Effect.timer_cases (h : Effect s i t) (c : Chip) :
    (t.chip c).timer = (s.chip c).timer ∨
    (∃ p ∈ [1, 8, 64, 1024], ∃ v, (t.chip c).timer = timerReset p v) ∨
    ((s.chip c).timer.timeout = true ∧
      (t.chip c).timer = timerReset (s.chip c).timer.prescale (s.chip c).timer.start) ∨
    (i = .reset ∧ (t.chip c).timer = Timer.reset) ∨
    (∃ n, i = .tick n ∧ (t.chip c).timer = timerUpdate n (s.chip c).timer) := by
  cases h with
  | reArmed d _ ht =>
    by_cases hcd : c = d
    · subst hcd
      exact .inr (.inr (.inl ⟨ht, by simp⟩))
    · exact .inl (by simp [State.setTimer_chip_other _ _ _ _ hcd])
  | chipWritten d x _ _ _ ht =>
    by_cases hcd : c = d
    · subst hcd
      rw [State.setChip_chip_same]
      exact ht.imp_right .inl
    · exact .inl (by rw [State.setChip_chip_other _ _ _ _ hcd])
  | serialWritten v =>
    refine .inl ?_
    rw [State.serialWrite_chip]
    cases c <;> simp
  | poweredOn hi => exact .inr (.inr (.inr (.inl ⟨hi, by cases c <;> rfl⟩)))
  | ticked n hi => exact .inr (.inr (.inr (.inr ⟨n, hi, by cases c <;> rfl⟩)))
  | _ => exact .inl (by cases c <;> rfl)

/-- Settles O45: without a tick or a reset a timer stays as it was or is re-armed. -/
theorem onlyTicksAdvanceTheTimers : Obligations.OnlyTicksAdvanceTheTimers := by
  intro i s t c h htick hreset
  have hsame : (t.chip c).timer = (s.chip c).timer ∨ ∃ p v, (t.chip c).timer = timerReset p v := by
    rcases (exec_effect h).timer_cases c with hc | ⟨p, -, v, hc⟩ | ⟨-, hc⟩ | ⟨hi, -⟩ | ⟨n, hi, -⟩
    · exact .inl hc
    · exact .inr ⟨p, v, hc⟩
    · exact .inr ⟨_, _, hc⟩
    · exact absurd hi hreset
    · exact absurd hi (htick n)
  rcases hsame with hc | ⟨p, v, hc⟩ <;> rw [hc]
  · exact ⟨id, .inl rfl⟩
  · exact ⟨fun _ => rfl, .inr ⟨rfl, rfl, rfl⟩⟩

/-! The shift register and the logs. -/

/-- Everything an operation can do to the shift register and the logs: nothing, a read of offset 2
of `SYS`, a write of it, and `RESET`. -/
theorem Effect.serial_cases (h : Effect s i t) :
    (i.readsSerialLine = false ∧ i.writesSerialLine = false ∧
      t.ser = s.ser ∧ t.txcon = s.txcon ∧ t.txtape = s.txtape) ∨
    (i.readsSerialLine = true ∧ i.writesSerialLine = false ∧
      t.ser = { s.ser with bitready := true } ∧ t.txcon = s.txcon ∧ t.txtape = s.txtape) ∨
    (i.readsSerialLine = false ∧ i.writesSerialLine = true ∧
      ∃ v, t = (s.setPbd .sys v).serialWrite (serialBit v)) ∨
    (i = .reset ∧ t = s.powerOn) := by
  cases h with
  | fetched _ _ hread hser =>
    exact .inl ⟨hser, Instr.writesSerialLine_of_isRead hread, rfl, rfl, rfl⟩
  | serialRead hser =>
    have hread := Instr.isRead_of_readsSerialLine hser
    exact .inr (.inl ⟨hser, Instr.writesSerialLine_of_isRead hread, rfl, rfl, rfl⟩)
  | reArmed c hcnt =>
    have hread := Instr.isRead_of_readsCountOf hcnt
    exact .inl ⟨Instr.readsSerialLine_of_readsCountOf hcnt,
      Instr.writesSerialLine_of_isRead hread, rfl, rfl, rfl⟩
  | dropped hread hchip =>
    refine .inl ⟨Instr.readsSerialLine_of_not_isRead hread, Bool.eq_false_iff.2 fun hser => ?_,
      rfl, rfl, rfl⟩
    simp [Instr.chipAddressed_of_writesSerialLine hser] at hchip
  | chipWritten _ _ _ hread hser =>
    exact .inl ⟨Instr.readsSerialLine_of_not_isRead hread, hser, rfl, rfl, rfl⟩
  | serialWritten v hser =>
    have hread := Instr.isRead_of_writesSerialLine hser
    exact .inr (.inr (.inl ⟨Instr.readsSerialLine_of_not_isRead hread, hser, v, rfl⟩))
  | poweredOn hi => exact .inr (.inr (.inr ⟨hi, rfl⟩))
  | ramWritten _ _ hi | ticked _ hi | keySet _ hi | modeSet _ hi | tapeSet _ hi =>
    subst hi
    exact .inl ⟨rfl, rfl, rfl, rfl, rfl⟩

/-- Everything a write of offset 2 of `SYS` can do to the shift register and the logs: leave both,
start a frame, take a bit, or end the frame and emit its byte. -/
theorem State.serialWrite_ser_cases (s : State) (b : Bool) :
    ((s.serialWrite b).ser = s.ser ∧ (s.serialWrite b).txcon = s.txcon ∧
      (s.serialWrite b).txtape = s.txtape) ∨
    (s.ser.active = false ∧ (s.serialWrite b).ser = Serial.started ∧
      (s.serialWrite b).txcon = s.txcon ∧ (s.serialWrite b).txtape = s.txtape) ∨
    (s.ser.active = true ∧ s.ser.bitcnt ≠ 8 ∧ (s.serialWrite b).ser = s.ser.consumed b ∧
      (s.serialWrite b).txcon = s.txcon ∧ (s.serialWrite b).txtape = s.txtape) ∨
    (s.ser.active = true ∧ s.ser.bitready = true ∧ s.ser.bitcnt = 8 ∧
      (s.serialWrite b).ser = { s.ser with active := false } ∧
      (s.serialWrite b).txcon = (s.emit s.ser.acc).txcon ∧
      (s.serialWrite b).txtape = (s.emit s.ser.acc).txtape) := by
  rcases s.serialWrite_cases b with ⟨ha, -, e⟩ | ⟨-, -, e⟩ | ⟨-, -, e⟩ | ⟨ha, -, hn, e⟩ |
    ⟨ha, hr, hn, e⟩ <;> rw [e]
  · exact .inr (.inl ⟨ha, rfl, rfl, rfl⟩)
  · exact .inl ⟨rfl, rfl, rfl⟩
  · exact .inl ⟨rfl, rfl, rfl⟩
  · exact .inr (.inr (.inl ⟨ha, hn, rfl, rfl, rfl⟩))
  · exact .inr (.inr (.inr ⟨ha, hr, hn, rfl, rfl, rfl⟩))

/-- What `Emit` does to the logs. -/
theorem State.emit_logs (s : State) (b : Byte) :
    ((s.emit b).txcon = s.txcon ∧ (s.emit b).txtape = s.txtape) ∨
    (s.tapew = false ∧ (s.emit b).txcon = s.txcon ++ [b] ∧ (s.emit b).txtape = s.txtape) ∨
    (s.tapew = true ∧ b ≠ 0 ∧ (s.emit b).txtape = s.txtape ++ [b] ∧
      (s.emit b).txcon = s.txcon) := by
  rcases s.emit_cases b with ⟨ht, e⟩ | ⟨ht, hb, e⟩ | ⟨-, -, e⟩ <;> rw [e]
  · exact .inr (.inl ⟨ht, rfl, rfl⟩)
  · exact .inr (.inr ⟨ht, hb, rfl, rfl⟩)
  · exact .inl ⟨rfl, rfl⟩

/-- Settles O46: only the write that ends a frame emits, and `Emit` appends to one log or none. -/
theorem logsGrowOnlyByAnEmittedByte : Obligations.LogsGrowOnlyByAnEmittedByte := by
  intro i s t h hreset
  rcases (exec_effect h).serial_cases with ⟨-, -, -, hlogs⟩ | ⟨-, -, -, hlogs⟩ |
    ⟨-, hser, v, rfl⟩ | ⟨hi, -⟩
  case inr.inr.inr => exact absurd hi hreset
  case inl | inr.inl => exact .inl hlogs
  case inr.inr.inl =>
    rcases (s.setPbd .sys v).serialWrite_ser_cases (serialBit v) with ⟨-, hlogs⟩ |
      ⟨-, -, hlogs⟩ | ⟨-, -, -, hlogs⟩ | ⟨ha, hr, hn, hidle, hcon, htape⟩
    case inl | inr.inl | inr.inr.inl => exact .inl hlogs
    case inr.inr.inr =>
      rw [hcon, htape]
      refine ((s.setPbd .sys v).emit_logs s.ser.acc).imp_right fun hgrow => ?_
      exact ⟨hser, ha, hr, hn, by rw [hidle], hgrow⟩

/-- Settles O47, by what an operation can do to the shift register. -/
theorem shiftRegisterMovesOnlyThroughItsRegister :
    Obligations.ShiftRegisterMovesOnlyThroughItsRegister := by
  intro i s t h hreset
  rcases (exec_effect h).serial_cases with ⟨hrd, hwr, hser, -⟩ | ⟨hrd, hwr, hser, -⟩ |
    ⟨hrd, hwr, v, rfl⟩ | ⟨hi, -⟩
  · simp +contextual [hrd, hwr, hser]
  · simp +contextual [hrd, hser]
  · refine ⟨fun _ hother => absurd hwr (hother ▸ Bool.false_ne_true),
      fun hother => absurd hother (hrd ▸ Bool.false_ne_true), fun ha hidle => ⟨hwr, ?_⟩,
      fun _ _ => hwr⟩
    rcases (s.setPbd .sys v).serialWrite_ser_cases (serialBit v) with ⟨hser, -⟩ |
      ⟨hstart, -⟩ | ⟨-, -, hser, -⟩ | ⟨-, hr, hn, -⟩
    · rw [hser] at hidle
      exact absurd (ha.symm.trans hidle) nofun
    · exact absurd (ha.symm.trans hstart) nofun
    · rw [hser] at hidle
      exact absurd (ha.symm.trans hidle) nofun
    · exact ⟨hr, hn⟩
  · exact absurd hi hreset

/-! The invariant of the block. -/

/-- Re-arming a timed-out timer keeps its invariants: its divisor is not 0. -/
theorem Timer.Inv.reArmed {x : Timer} (h : x.Inv) (ht : x.timeout = true) :
    (timerReset x.prescale x.start).Inv := by
  obtain ⟨hp, -, h0, -, -⟩ := h
  have hp0 : x.prescale ≠ 0 := fun hz => by
    obtain ⟨-, -, -, hf⟩ := h0 hz
    simp [ht] at hf
  exact timerReset_inv _ (List.mem_of_ne_of_mem hp0 hp)

theorem Timer.reset_inv : Timer.reset.Inv := by decide

theorem Serial.reset_inv : Serial.reset.Inv := by decide

theorem Serial.started_inv : Serial.started.Inv := by decide

theorem Effect.timer_inv (h : Effect s i t) {c : Chip} (hinv : (s.chip c).timer.Inv) :
    (t.chip c).timer.Inv := by
  rcases h.timer_cases c with e | ⟨p, hp, v, e⟩ | ⟨ht, e⟩ | ⟨-, e⟩ | ⟨n, -, e⟩ <;> rw [e]
  · exact hinv
  · exact timerReset_inv v hp
  · exact hinv.reArmed ht
  · exact Timer.reset_inv
  · exact timerUpdate_inv n hinv

/-- The accumulator after a bit, as a number: the others move one place down. -/
theorem Serial.consumed_acc_toNat (x : Serial) (b : Bool) :
    (x.consumed b).acc.toNat = 2 ^ 7 * b.toNat + x.acc.toNat / 2 := by
  have hlt : x.acc.toNat >>> 1 < 2 ^ 7 := by
    have := x.acc.isLt
    rw [Nat.shiftRight_eq_div_pow]
    omega
  have hbit : ((BitVec.ofBool b).setWidth 8 <<< 7).toNat = 2 ^ 7 * b.toNat := by cases b <;> rfl
  rw [Serial.consumed, BitVec.toNat_or, BitVec.toNat_ushiftRight, hbit, Nat.or_comm,
    ← Nat.two_pow_add_eq_or_of_lt hlt, Nat.shiftRight_eq_div_pow, Nat.pow_one]

/-- Taking a bit before the eighth keeps the invariants: one place fewer is still empty. -/
theorem Serial.Inv.consumed {x : Serial} (h : x.Inv) (ha : x.active = true) (hn : x.bitcnt ≠ 8)
    (b : Bool) : (x.consumed b).Inv := by
  obtain ⟨hle, hempty⟩ := h
  have hlt : x.bitcnt + 1 ≤ 8 := by omega
  refine ⟨hlt, fun _ => Nat.mod_eq_zero_of_dvd ?_⟩
  have hacc : 2 ^ (8 - (x.bitcnt + 1)) * 2 ∣ x.acc.toNat := by
    rw [← Nat.pow_succ, show (8 - (x.bitcnt + 1)).succ = 8 - x.bitcnt by omega]
    exact Nat.dvd_of_mod_eq_zero (hempty ha)
  rw [Serial.consumed_acc_toNat]
  refine Nat.dvd_add (Nat.dvd_mul_right_of_dvd (Nat.pow_dvd_pow 2 ?_) _) (Nat.dvd_div_of_mul_dvd ?_)
  · show 8 - (x.bitcnt + 1) ≤ 7
    omega
  · rwa [Nat.mul_comm] at hacc

theorem Effect.serial_inv (h : Effect s i t) (hinv : s.ser.Inv) : t.ser.Inv := by
  rcases h.serial_cases with ⟨-, -, e, -⟩ | ⟨-, -, e, -⟩ | ⟨-, -, v, rfl⟩ | ⟨-, rfl⟩
  · exact e ▸ hinv
  · exact e ▸ hinv
  · rcases (s.setPbd .sys v).serialWrite_ser_cases (serialBit v) with ⟨e, -⟩ | ⟨-, e, -⟩ |
      ⟨ha, hn, e, -⟩ | ⟨-, -, -, e, -⟩ <;> rw [e]
    · exact hinv
    · exact Serial.started_inv
    · exact hinv.consumed ha hn _
    · exact ⟨hinv.1, nofun⟩
  · exact Serial.reset_inv

theorem Effect.zero_not_mem_txtape (h : Effect s i t) (hinv : (0 : Byte) ∉ s.txtape) :
    (0 : Byte) ∉ t.txtape := by
  rcases h.serial_cases with ⟨-, -, -, -, e⟩ | ⟨-, -, -, -, e⟩ | ⟨-, -, v, rfl⟩ | ⟨-, rfl⟩
  · exact e ▸ hinv
  · exact e ▸ hinv
  · rcases (s.setPbd .sys v).serialWrite_ser_cases (serialBit v) with ⟨-, -, e⟩ | ⟨-, -, -, e⟩ |
      ⟨-, -, -, -, e⟩ | ⟨-, -, -, -, -, e⟩ <;> rw [e]
    · exact hinv
    · exact hinv
    · exact hinv
    · rcases (s.setPbd .sys v).emit_logs s.ser.acc with ⟨-, e⟩ | ⟨-, -, e⟩ | ⟨-, hb, e, -⟩ <;>
        simp only [State.setPbd_ser, e, State.setPbd_txtape]
      · exact hinv
      · exact hinv
      · simp only [List.mem_append, List.mem_singleton, not_or]
        exact ⟨hinv, fun h0 => hb h0.symm⟩
  · exact List.not_mem_nil

/-- A well-formed operation keeps RAM in canonical form and inside its region. -/
theorem exec_ramInv (h : exec i s = .next t) (hwf : i.wf s.cfg.toParams = true)
    (hinv : s.RamInv) : t.RamInv := by
  obtain ⟨hcfg, hram⟩ := exec_cfg_ram h
  obtain ⟨hcanonical, hregion⟩ := hinv
  rw [State.RamInv, hcfg, hram]
  cases i
  case wrRam a v =>
    refine ⟨Memory.wf_write _ _ _ _ hcanonical, fun e he => ?_⟩
    rcases Memory.mem_write he with he | ⟨rfl, -⟩
    · exact hregion e he
    · exact eq_of_beq hwf
  case reset => exact ⟨rfl, nofun⟩
  all_goals exact ⟨hcanonical, hregion⟩

/-- A well-formed operation keeps the invariant of the block. -/
theorem exec_inv (h : exec i s = .next t) (hwf : i.wf s.cfg.toParams = true) (hinv : s.Inv) :
    t.Inv := by
  obtain ⟨happ, hsys, hser, hram, htape⟩ := hinv
  have heff := exec_effect h
  exact ⟨heff.timer_inv (c := .app) happ, heff.timer_inv (c := .sys) hsys, heff.serial_inv hser,
    exec_ramInv h hwf hram, heff.zero_not_mem_txtape htape⟩

/-- Settles O48: a step runs nothing or a decoded, hence well-formed, operation. -/
theorem stepKeepsTheBlockInvariant : Obligations.StepKeepsTheBlockInvariant := by
  intro s t hinv h
  cases hpending : s.pending with
  | nil =>
    rw [step_of_nil hpending] at h
    cases h
    exact hinv
  | cons word rest =>
    cases hdecode : decode s.cfg.toParams word with
    | error why => rw [step_of_error hpending hdecode] at h; cases h
    | ok i =>
      rw [step_of_ok hpending hdecode] at h
      exact exec_inv h (decodedOperationIsWellFormed s.cfg word i hdecode) hinv

/-- Settles O49: the parts of the invariant hold of the reset values. -/
theorem resetMeetsTheBlockInvariant : Obligations.ResetMeetsTheBlockInvariant := by
  have hreset : ∀ c : Config, (State.resetWith c).Inv := fun c =>
    ⟨Timer.reset_inv, Timer.reset_inv, Serial.reset_inv, ⟨State.resetWith_ram_wf c, nofun⟩, nofun⟩
  exact ⟨hreset, hreset Config.suggested⟩

end Sys2Proof.Machine
end

section
/-! SUPPORT. Proofs: noninterference. What an operation does not read may be replaced before it or
after it: the registers of the other chip, `PAD[SYS]`, and what an idle shift register holds. -/

namespace Sys2Proof.Machine

/-! The registers of the other chip (rule R152). -/

theorem State.emit_setChip (s : State) (c : Chip) (x : ChipRegs) (b : Byte) :
    (s.setChip c x).emit b = (s.emit b).setChip c x := by
  unfold State.emit
  rw [State.setChip_tapew]
  split
  · split <;> rfl
  · rfl

/-- The shift register is no part of the chip registers. -/
theorem State.serialWrite_setChip (s : State) (c : Chip) (x : ChipRegs) (b : Bool) :
    (s.setChip c x).serialWrite b = (s.serialWrite b).setChip c x := by
  unfold State.serialWrite
  rw [State.setChip_ser, State.emit_setChip]
  split
  · split
    · split <;> rfl
    · rfl
  · split <;> rfl

/-- An operation on chip `c` commutes with replacing the registers of the other chip. -/
theorem exec_setChip_other {i : Instr} {s t : State} {c d : Chip} (x : ChipRegs)
    (h : exec i s = .next t) (hchip : i.chipAddressed = some c) (hd : d ≠ c) :
    exec i (s.setChip d x) = .next (t.setChip d x) := by
  have hcd : (c = .app ∧ d = .sys) ∨ (c = .sys ∧ d = .app) := by
    cases c <;> cases d <;> simp_all
  refine exec_next_cases
    (fun i s t => i.chipAddressed = some c → exec i (s.setChip d x) = .next (t.setChip d x))
    ?running ?timedOut ?plain ?chipRead ?chipWrite i s t h hchip
  case running =>
    rintro e s ht hchip
    obtain rfl : e = c := Option.some.inj hchip
    have hother := State.setChip_chip_other s d e x hd.symm
    rw [exec_rdTcnt_running _ _ (by rw [hother, ht]), hother]
    rfl
  case timedOut =>
    rintro e s ht hchip
    obtain rfl : e = c := Option.some.inj hchip
    have hother := State.setChip_chip_other s d e x hd.symm
    rw [exec_rdTcnt_timedOut _ _ (by rw [hother, ht]), hother]
    rcases hcd with ⟨rfl, rfl⟩ | ⟨rfl, rfl⟩ <;> rfl
  case plain =>
    intro i s t h hTcnt hRd hWr hchip
    cases i
    case rdTcnt e => exact absurd rfl (hTcnt e)
    case rdChip e o => exact absurd rfl (hRd e o)
    case wrChip e o v => exact absurd rfl (hWr e o v)
    case wrPbdSer v =>
      cases h
      rcases hcd with ⟨rfl, rfl⟩ | ⟨rfl, rfl⟩
      · cases hchip
      · exact congrArg Host.Outcome.next (State.serialWrite_setChip (s.setPbd .sys v) .app x _)
    all_goals
      rcases hcd with ⟨rfl, rfl⟩ | ⟨rfl, rfl⟩ <;> cases hchip <;> cases h <;> rfl
  case chipRead =>
    intro e o s t hreg hchip
    rw [exec_rdChip]
    exact hreg ((chipAddressed_decodeRegRead e _).trans hchip)
  case chipWrite =>
    intro e o v s t hreg hchip
    rw [exec_wrChip]
    exact hreg ((chipAddressed_decodeRegWrite e _ v).trans hchip)

variable {i : Instr} {s t : State} {c d : Chip}

/-- An operation on chip `c` leaves the other chip alone. -/
theorem Effect.chip_other (h : Effect s i t) (hchip : i.chipAddressed = some c) (hd : d ≠ c) :
    t.chip d = s.chip d := by
  cases h with
  | fetched => cases d <;> rfl
  | serialRead => rfl
  | reArmed e hcnt =>
    obtain rfl : e = c :=
      Option.some.inj ((Instr.chipAddressed_of_readsCountOf hcnt).symm.trans hchip)
    exact State.setTimer_chip_other _ _ _ _ hd
  | dropped => rfl
  | chipWritten e x he =>
    obtain rfl : e = c := Option.some.inj (he.symm.trans hchip)
    exact State.setChip_chip_other _ _ _ _ hd
  | serialWritten v hser =>
    obtain rfl : c = .sys :=
      Option.some.inj (hchip.symm.trans (Instr.chipAddressed_of_writesSerialLine hser))
    rw [State.serialWrite_chip, State.setPbd_chip_other _ _ _ _ hd]
  | ramWritten _ _ hi | poweredOn hi | ticked _ hi | keySet _ hi | modeSet _ hi | tapeSet _ hi =>
    subst hi
    cases hchip

/-- An operation on `APP` leaves the shift register and the logs alone. -/
theorem Effect.serial_of_app (h : Effect s i t) (hchip : i.chipAddressed = some .app) :
    t.ser = s.ser ∧ t.txcon = s.txcon ∧ t.txtape = s.txtape := by
  rcases h.serial_cases with ⟨-, -, hsame⟩ | ⟨hser, -⟩ | ⟨-, hser, -⟩ | ⟨rfl, -⟩
  · exact hsame
  · cases hchip.symm.trans (Instr.chipAddressed_of_readsSerialLine hser)
  · cases hchip.symm.trans (Instr.chipAddressed_of_writesSerialLine hser)
  · cases hchip

theorem ramAfter_of_chipAddressed (s : State) (hchip : i.chipAddressed = some c) :
    ramAfter s i = s.ram := by
  cases i
  case wrRam | reset => cases hchip
  all_goals rfl

/-- Settles O43: the frame of a chip operation, which commutes with replacing the other chip. -/
theorem chipsAreIndependent : Obligations.ChipsAreIndependent := by
  intro i s t c d x hchip hd h
  have heff := exec_effect h
  have hhost : ∀ j : Instr, j.chipAddressed = none → i ≠ j := by
    rintro j hj rfl
    cases hchip.symm.trans hj
  refine ⟨heff.chip_other hchip hd, exec_setChip_other x h hchip hd,
    (exec_cfg_ram h).2.trans (ramAfter_of_chipAddressed s hchip),
    heff.key_eq (fun _ => hhost _ rfl) (hhost _ rfl),
    heff.sermode_eq (fun _ => hhost _ rfl) (hhost _ rfl),
    heff.tapew_eq (fun _ => hhost _ rfl) (hhost _ rfl), ?_⟩
  rintro rfl
  exact heff.serial_of_app hchip

/-! `PAD[SYS]` (rule R21). -/

theorem State.serialWrite_setPad (s : State) (c : Chip) (p : Byte) (b : Bool) :
    (s.setPad c p).serialWrite b = (s.serialWrite b).setPad c p := by
  rw [State.setPad, State.serialWrite_setChip, State.setPad, State.serialWrite_chip]

theorem State.setPad_chip_timer (s : State) (c d : Chip) (p : Byte) :
    ((s.setPad c p).chip d).timer = (s.chip d).timer := by cases c <;> cases d <;> rfl

/-- An operation run with another byte in `PAD[SYS]` does the same but for that byte. -/
theorem exec_setPad_sys (h : exec i s = .next t) (p : Byte) :
    ∃ q, exec i (s.setPad .sys p) = .next (t.setPad .sys q) := by
  refine exec_next_cases (fun i s t => ∃ q, exec i (s.setPad .sys p) = .next (t.setPad .sys q))
    ?running ?timedOut ?plain ?chipRead ?chipWrite i s t h
  case running =>
    intro c s ht
    rw [exec_rdTcnt_running _ _ (by rwa [State.setPad_chip_timer]), State.setPad_chip_timer]
    exact ⟨p, rfl⟩
  case timedOut =>
    intro c s ht
    rw [exec_rdTcnt_timedOut _ _ (by rwa [State.setPad_chip_timer]), State.setPad_chip_timer]
    exact ⟨p, by cases c <;> rfl⟩
  case plain =>
    intro i s t h hTcnt hRd hWr
    cases i
    case rdTcnt c => exact absurd rfl (hTcnt c)
    case rdChip c o => exact absurd rfl (hRd c o)
    case wrChip c o v => exact absurd rfl (hWr c o v)
    all_goals cases h
    -- The two operations that overwrite the byte.
    case wrPad c v =>
      cases c with
      | app => exact ⟨p, rfl⟩
      | sys => exact ⟨v, rfl⟩
    case reset => exact ⟨0, rfl⟩
    case wrPbdSer v =>
      exact ⟨p, congrArg Host.Outcome.next (State.serialWrite_setPad (s.setPbd .sys v) .sys p _)⟩
    case rdPadd c | rdPbdd c | rdTstat c | wrPadd c _ | wrPbdd c _ | wrTim1 c _ | wrTim8 c _
        | wrTim64 c _ | wrTim1024 c _ =>
      exact ⟨p, by cases c <;> rfl⟩
    all_goals exact ⟨p, rfl⟩
  case chipRead =>
    intro c o s t hreg
    rwa [exec_rdChip]
  case chipWrite =>
    intro c o v s t hreg
    rwa [exec_wrChip]

/-- Settles O51: the two next states differ in `PAD[SYS]` alone. -/
theorem storedSysPadCannotBeObserved : Obligations.StoredSysPadCannotBeObserved := by
  intro i s s' t hsame h
  obtain ⟨q, hq⟩ := exec_setPad_sys h s'.sys.pad
  rw [← hsame]
  exact ⟨t.setPad .sys q, hq, rfl, rfl, rfl, rfl⟩

/-! What an idle shift register has left over (rules R39, R216). -/

/-- The two shift registers agree but for what is left over in an idle one. -/
def Serial.SameButIdle (x y : Serial) : Prop := x.active = y.active ∧ (x.active = true → x = y)

theorem Serial.SameButIdle.refl (x : Serial) : x.SameButIdle x := ⟨rfl, fun _ => rfl⟩

theorem Serial.SameButIdle.of_idle {x y : Serial} (hx : x.active = false) (hy : y.active = false) :
    x.SameButIdle y := ⟨hx.trans hy.symm, fun ha => absurd (ha.symm.trans hx) nofun⟩

/-- A write of offset 2 of `SYS` while the register is idle looks at nothing left over in it. -/
theorem exec_wrPbdSer_setSer_idle {y : Serial} {v : Byte} (hs : s.ser.active = false)
    (hy : y.active = false) (h : exec (.wrPbdSer v) s = .next t) :
    ∃ z, exec (.wrPbdSer v) (s.setSer y) = .next (t.setSer z) ∧ t.ser.SameButIdle z := by
  cases hv : serialBit v with
  | false =>
    rw [exec_wrPbdSer_starts hs hv] at h
    cases h
    exact ⟨Serial.started, exec_wrPbdSer_starts (s := s.setSer y) hy hv, .refl _⟩
  | true =>
    rw [exec_wrPbdSer_stays_idle hs hv] at h
    cases h
    exact ⟨y, exec_wrPbdSer_stays_idle (s := s.setSer y) hy hv, .of_idle hs hy⟩

/-- An operation run with other left-over values in an idle shift register does the same but for
what is left over. -/
theorem exec_setSer_idle {y : Serial} (h : exec i s = .next t) (hs : s.ser.active = false)
    (hy : y.active = false) :
    ∃ z, exec i (s.setSer y) = .next (t.setSer z) ∧ t.ser.SameButIdle z := by
  refine exec_next_cases (fun i s t => s.ser.active = false →
      ∃ z, exec i (s.setSer y) = .next (t.setSer z) ∧ t.ser.SameButIdle z)
    ?running ?timedOut ?plain ?chipRead ?chipWrite i s t h hs
  case running =>
    intro c s ht hs
    exact ⟨y, exec_rdTcnt_running (s.setSer y) c ht, .of_idle hs hy⟩
  case timedOut =>
    intro c s ht hs
    exact ⟨y, exec_rdTcnt_timedOut (s.setSer y) c ht, .of_idle hs hy⟩
  case plain =>
    intro i s t h hTcnt hRd hWr hs
    cases i
    case rdTcnt c => exact absurd rfl (hTcnt c)
    case rdChip c o => exact absurd rfl (hRd c o)
    case wrChip c o v => exact absurd rfl (hWr c o v)
    case wrPbdSer v => exact exec_wrPbdSer_setSer_idle hs hy h
    all_goals cases h
    case rdPbdSer => exact ⟨{ y with bitready := true }, rfl, .of_idle hs hy⟩
    case reset => exact ⟨Serial.reset, rfl, .refl _⟩
    all_goals exact ⟨y, rfl, .of_idle hs hy⟩
  case chipRead =>
    intro c o s t hreg
    rwa [exec_rdChip]
  case chipWrite =>
    intro c o v s t hreg
    rwa [exec_wrChip]

/-- Settles O50: in a frame the two states are the same, and in Idle the left-over values are not
looked at. -/
theorem idleSerialFieldsCannotBeObserved : Obligations.IdleSerialFieldsCannotBeObserved := by
  intro i s s' t ⟨hactive, hframe, hsame⟩ h
  cases ha : s.ser.active with
  | true =>
    rw [← hframe ha] at hsame
    cases hsame
    exact ⟨t, h, ⟨rfl, fun _ => rfl, rfl⟩, rfl, rfl, rfl⟩
  | false =>
    obtain ⟨z, hz, hactive', hframe'⟩ := exec_setSer_idle h ha (hactive.symm.trans ha)
    rw [← hsame]
    exact ⟨t.setSer z, hz, ⟨hactive', hframe', rfl⟩, rfl, rfl, rfl⟩

end Sys2Proof.Machine
end

section
/-! SUPPORT. Proofs: the ticks of the interval timer (spec/42_timer.md). A timer that is armed and
then only ticked is followed by the total of its ticks. -/

namespace Sys2Proof.Machine

/-! One tick, case by case (rule R161). -/

section
variable {n : Nat} {x : Timer}

theorem timerUpdate_stopped (hs : x.prescale = 0 ∨ x.timeout = true) : timerUpdate n x = x := by
  rcases hs with hp | ht
  · simp [timerUpdate, Timer.stopped, hp]
  · exact timerUpdate_of_timeout n ht

theorem timerUpdate_accumulates (hp : 0 < x.prescale) (ht : x.timeout = false)
    (hle : x.rem + n ≤ x.prescale) : timerUpdate n x = { x with rem := x.rem + n } := by
  simp [timerUpdate, Timer.stopped, exceeds, Nat.ne_of_gt hp, ht, Nat.not_lt.2 hle]

theorem timerUpdate_latches (hp : 0 < x.prescale) (ht : x.timeout = false)
    (hlt : x.prescale < x.rem + n) (hcount : x.count.toNat ≤ (x.rem + n) / x.prescale) :
    timerUpdate n x = { x with rem := (x.rem + n) % x.prescale, count := 0, timeout := true } := by
  simp [timerUpdate, Timer.stopped, exceeds, latches, Nat.ne_of_gt hp, ht, hlt, hcount]

theorem timerUpdate_decrements (hp : 0 < x.prescale) (ht : x.timeout = false)
    (hlt : x.prescale < x.rem + n) (hcount : (x.rem + n) / x.prescale < x.count.toNat) :
    timerUpdate n x =
      { x with
        rem := (x.rem + n) % x.prescale
        count := BitVec.ofNat 8 (x.count.toNat - (x.rem + n) / x.prescale) } := by
  simp [timerUpdate, Timer.stopped, exceeds, latches, Nat.ne_of_gt hp, ht, hlt,
    Nat.not_le.2 hcount]

end

/-- `TICK` updates the timer of either chip. -/
theorem exec_tick_timer (s : State) (n : Nat) :
    ∃ t, exec (.tick n) s = .next t ∧
      t = { s with
        app := { s.app with timer := t.app.timer }
        sys := { s.sys with timer := t.sys.timer } } ∧
      ∀ c, (t.chip c).timer = timerUpdate n (s.chip c).timer :=
  ⟨_, exec_tick s n, rfl, fun c => by cases c <;> rfl⟩

/-- Settles O24: both timers follow `TimerUpdate`, which has these four cases. -/
theorem tickFeedsBothTimers : Obligations.TickFeedsBothTimers := by
  intro s n
  obtain ⟨t, ht, hframe, htimer⟩ := exec_tick_timer s n
  refine ⟨t, ht, hframe, ?_⟩
  rintro c x rfl y rfl
  rw [htimer]
  refine ⟨timerUpdate_stopped, timerUpdate_accumulates, timerUpdate_latches,
    fun hp hclear hlt hcount => ?_⟩
  rw [timerUpdate_decrements hp hclear hlt hcount]
  exact ⟨rfl, rfl, hclear, rfl, timerUpdate_count_toNat hcount⟩

/-- No ticks leave a timer as it was, since its remainder does not exceed the divisor (R30 (e)). -/
theorem timerUpdate_zero {x : Timer} (h : x.Inv) : timerUpdate 0 x = x := by
  obtain ⟨-, -, -, hrem, -⟩ := h
  by_cases hs : x.prescale = 0 ∨ x.timeout = true
  · exact timerUpdate_stopped hs
  · obtain ⟨hp, ht⟩ := not_or.1 hs
    have hclear : x.timeout = false := Bool.eq_false_iff.2 ht
    exact timerUpdate_accumulates (Nat.pos_of_ne_zero hp) hclear (hrem hclear)

/-- Settles O26: `TICK 0` gives each timer no ticks. -/
theorem tickZeroChangesNothing : Obligations.TickZeroChangesNothing := by
  intro s happ hsys
  rw [exec_tick, timerUpdate_zero happ, timerUpdate_zero hsys]
  rfl

/-! Runs of ticks. -/

/-- The timer after the tick counts `ns`, one after another. -/
def Timer.ticked (x : Timer) (ns : List Nat) : Timer := ns.foldl (fun x n => timerUpdate n x) x

theorem Timer.ticked_cons (x : Timer) (n : Nat) (ns : List Nat) :
    x.ticked (n :: ns) = (timerUpdate n x).ticked ns := rfl

/-- A run of ticks gives each timer all of them. -/
theorem runOps_ticks (ns : List Nat) (s : State) (c : Chip) :
    ∃ t, runOps (ns.map Instr.tick) s = .next t ∧
      (t.chip c).timer = (s.chip c).timer.ticked ns := by
  induction ns generalizing s with
  | nil => exact ⟨s, rfl, rfl⟩
  | cons n ns ih =>
    obtain ⟨u, hu, -, htimer⟩ := exec_tick_timer s n
    obtain ⟨t, ht, hfold⟩ := ih u
    refine ⟨t, ?_, by rw [hfold, htimer, Timer.ticked_cons]⟩
    rw [List.map_cons, runOps_cons _ hu, ht]

/-- A timer armed with divisor `p` and start value `v` that has received `total` ticks and is still
running: what it has counted down and its remainder are those ticks (R172). -/
structure Timer.Running (p v total : Nat) (x : Timer) : Prop where
  prescale : x.prescale = p
  clear : x.timeout = false
  rem_le : x.rem ≤ p
  count_le : x.count.toNat ≤ v
  count_pos : 1 ≤ v → 1 ≤ x.count.toNat
  conserved : p * x.count.toNat + total = p * v + x.rem

/-- A timer armed with divisor `p` and start value `v` that has timed out by `total` ticks: they are
more than `p`, at least `v * p`, and at exactly `v * p` the remainder is 0 (R173). -/
structure Timer.TimedOut (p v total : Nat) (x : Timer) : Prop where
  latched : x.timeout = true
  gt_prescale : p < total
  ge_product : v * p ≤ total
  rem_at_product : total = v * p → x.rem = 0

variable {p v total n : Nat} {x : Timer}

theorem Timer.Running.armed (p : Nat) (v : Byte) : Running p v.toNat 0 ⟨p, v, v, 0, false⟩ :=
  ⟨rfl, rfl, Nat.zero_le p, Nat.le_refl _, id, rfl⟩

/-- A tick leaves a running timer running or times it out. -/
theorem Timer.Running.tick (hp : 0 < p) (h : x.Running p v total) :
    (timerUpdate n x).Running p v (total + n) ∨ (timerUpdate n x).TimedOut p v (total + n) := by
  obtain ⟨rfl, hclear, hrem, hcount, hpos, hsum⟩ := h
  by_cases hle : x.rem + n ≤ x.prescale
  · rw [timerUpdate_accumulates hp hclear hle]
    exact .inl ⟨rfl, hclear, hle, hcount, hpos, by simp only; omega⟩
  have hlt : x.prescale < x.rem + n := Nat.lt_of_not_le hle
  have hdiv : x.prescale * ((x.rem + n) / x.prescale) + (x.rem + n) % x.prescale = x.rem + n :=
    Nat.div_add_mod _ _
  rcases Nat.lt_or_ge ((x.rem + n) / x.prescale) x.count.toNat with hdec | hlatch
  · rw [timerUpdate_decrements hp hclear hlt hdec]
    refine .inl ⟨rfl, hclear, Nat.le_of_lt (Nat.mod_lt _ hp), ?_, fun _ => ?_, ?_⟩
    all_goals simp only [timerUpdate_count_toNat hdec]
    · exact Nat.le_trans (Nat.sub_le _ _) hcount
    · exact Nat.sub_pos_of_lt hdec
    · rw [Nat.mul_sub]
      have := Nat.mul_le_mul_left x.prescale (Nat.le_of_lt hdec)
      omega
  · rw [timerUpdate_latches hp hclear hlt hlatch]
    have hle : x.prescale * x.count.toNat ≤ x.rem + n :=
      Nat.le_trans (Nat.mul_le_mul_left _ hlatch) (Nat.mul_div_le _ _)
    have hle' : x.prescale * x.count.toNat ≤ x.prescale * v := Nat.mul_le_mul_left _ hcount
    refine .inr ⟨rfl, by omega, by rw [Nat.mul_comm]; omega, fun heq => ?_⟩
    rw [Nat.mul_comm] at heq
    rw [show x.rem + n = x.prescale * x.count.toNat by omega]
    exact Nat.mul_mod_right _ _

/-- A timed-out timer stays timed out. -/
theorem Timer.TimedOut.tick (h : x.TimedOut p v total) :
    (timerUpdate n x).TimedOut p v (total + n) := by
  obtain ⟨ht, hgt, hge, hrem⟩ := h
  rw [timerUpdate_of_timeout n ht]
  exact ⟨ht, by omega, by omega, fun heq => hrem (by omega)⟩

/-- From running or timed out, any ticks lead to running or timed out, by the new total. -/
theorem Timer.running_or_timedOut_ticked (hp : 0 < p) (ns : List Nat)
    (h : x.Running p v total ∨ x.TimedOut p v total) :
    (x.ticked ns).Running p v (total + ns.sum) ∨ (x.ticked ns).TimedOut p v (total + ns.sum) := by
  induction ns generalizing x total with
  | nil => exact h
  | cons n ns ih =>
    rw [Timer.ticked_cons, List.sum_cons, ← Nat.add_assoc]
    refine ih ?_
    rcases h with h | h
    · exact h.tick hp
    · exact .inr h.tick

/-- After arming, any ticks leave the timer running or timed out, by their sum. -/
theorem Timer.armed_ticked (hp : 0 < p) (v : Byte) (ns : List Nat) :
    (Timer.ticked ⟨p, v, v, 0, false⟩ ns).Running p v.toNat ns.sum ∨
      (Timer.ticked ⟨p, v, v, 0, false⟩ ns).TimedOut p v.toNat ns.sum := by
  have h := Timer.running_or_timedOut_ticked hp ns (.inl (Timer.Running.armed p v))
  rwa [Nat.zero_add] at h

theorem prescale_pos (h : p ∈ [1, 8, 64, 1024]) : 0 < p := by
  simp only [List.mem_cons, List.not_mem_nil, or_false] at h
  omega

theorem Timer.Running.not_latched (h : x.Running p v total) : ¬x.timeout = true := by
  simp [h.clear]

/-- A running timer conserves its ticks: the prescaled decrements plus the remainder. -/
theorem Timer.Running.total_eq (h : x.Running p v total) :
    total = p * (v - x.count.toNat) + x.rem := by
  have hle := Nat.mul_le_mul_left p h.count_le
  have hsum := h.conserved
  rw [Nat.mul_sub]
  omega

/-- Settles O27: a running timer conserves its ticks, and a timed-out one has its latch set. -/
theorem ticksAreConserved : Obligations.TicksAreConserved := by
  intro s c p v ns hp harmed
  obtain ⟨t, ht, htimer⟩ := runOps_ticks ns s c
  refine ⟨t, ht, ?_⟩
  rw [htimer, harmed]
  rcases Timer.armed_ticked (prescale_pos hp) v ns with hrun | hout
  · exact fun _ => ⟨hrun.count_le, hrun.rem_le, hrun.total_eq⟩
  · exact fun hclear => absurd (hout.latched.symm.trans hclear) nofun

/-! The thresholds (R173). -/

theorem Timer.Running.total_le (h : x.Running p v total) (hv : 1 ≤ v) : total ≤ v * p := by
  have hle : p * 1 ≤ p * x.count.toNat := Nat.mul_le_mul_left p (h.count_pos hv)
  have hsum := h.conserved
  have hrem := h.rem_le
  rw [Nat.mul_comm v p]
  omega

/-- A running timer with start value 0 has received at most the divisor. -/
theorem Timer.Running.total_le_prescale (h : x.Running p 0 total) : total ≤ p := by
  have hrem := h.rem_le
  have htotal := h.total_eq
  rw [Nat.zero_sub, Nat.mul_zero, Nat.zero_add] at htotal
  omega

/-- At `v * p` ticks a timer still running has the remainder `p`, so not 0. -/
theorem Timer.Running.rem_ne_zero (hp : 0 < p) (h : x.Running p v (v * p)) (hv : 1 ≤ v) :
    x.rem ≠ 0 := by
  have hle : p * 1 ≤ p * x.count.toNat := Nat.mul_le_mul_left p (h.count_pos hv)
  have hsum := h.conserved
  rw [Nat.mul_comm v p] at hsum
  omega

/-- A single tick count `n` times a freshly armed timer out if it exceeds `p` and holds `v` whole
ones. -/
theorem timerUpdate_armed_timeout (hp : 0 < p) (v : Byte) (n : Nat) :
    (timerUpdate n ⟨p, v, v, 0, false⟩).timeout = true ↔ p < n ∧ v.toNat ≤ n / p := by
  rcases timerUpdate_cases n ⟨p, v, v, 0, false⟩ with ⟨hs, -⟩ | ⟨-, -, hle, e⟩ |
    ⟨-, -, hlt, hl, e⟩ | ⟨-, -, -, hl, e⟩
  · exact absurd hs (by simp [Nat.ne_of_gt hp])
  · rw [Nat.zero_add] at hle
    simp [e, Nat.not_lt.2 hle]
  · rw [Nat.zero_add] at hlt hl
    simp [e, hlt, hl]
  · rw [Nat.zero_add] at hl
    simp [e, Nat.not_le.2 hl]

/-- Settles O28: each threshold tells a running timer from a timed-out one by the total. -/
theorem timeoutThresholds : Obligations.TimeoutThresholds := by
  intro s c p v ns hmem harmed
  have hp : 0 < p := prescale_pos hmem
  obtain ⟨t, ht, htimer⟩ := runOps_ticks ns s c
  refine ⟨t, ht, ?_⟩
  rw [htimer, harmed]
  have hstate := Timer.armed_ticked hp v ns
  refine ⟨fun _ hlt => ?below, fun hv hge => ?above, fun hv heq => ?atProduct,
    fun _ heq => ?startOne, fun hv => ?startZero, ?single⟩
  case below =>
    rcases hstate with hrun | hout
    · exact hrun.clear
    · exact absurd hout.ge_product (Nat.not_le.2 hlt)
  case above =>
    rcases hstate with hrun | hout
    · exact absurd (hrun.total_le hv) (Nat.not_le.2 hge)
    · exact hout.latched
  case atProduct =>
    rcases hstate with hrun | hout
    · exact iff_of_false hrun.not_latched ((heq ▸ hrun).rem_ne_zero hp hv)
    · exact iff_of_true hout.latched (hout.rem_at_product heq)
  case startOne =>
    rcases hstate with hrun | hout
    · exact hrun.clear
    · exact absurd hout.gt_prescale (heq ▸ Nat.lt_irrefl p)
  case startZero =>
    rcases hstate with hrun | hout
    · exact iff_of_false hrun.not_latched
        (Nat.not_le.2 (Nat.lt_succ_of_le (hv ▸ hrun).total_le_prescale))
    · exact iff_of_true hout.latched hout.gt_prescale
  case single =>
    rintro n rfl
    exact timerUpdate_armed_timeout hp v n

/-! Unit ticks (R173 (b), R174). -/

/-- A property of the timer after `k` unit ticks, by induction on `k`. -/
theorem Timer.ticked_units {Inv : Nat → Timer → Prop} {x : Timer} (h0 : Inv 0 x)
    (step : ∀ k x, Inv k x → Inv (k + 1) (timerUpdate 1 x)) (k : Nat) :
    Inv k (x.ticked (List.replicate k 1)) := by
  induction k with
  | zero => exact h0
  | succ k ih =>
    rw [List.replicate_succ', Timer.ticked, List.foldl_append]
    exact step k _ ih

/-- With a divisor above 1 a unit tick never leaves a running timer with remainder 0. -/
theorem timerUpdate_one_rem_pos (hp : 1 < x.prescale) (hclear : x.timeout = false)
    (hrem : x.rem ≤ x.prescale) : 0 < (timerUpdate 1 x).rem := by
  have hmod : ¬x.rem + 1 ≤ x.prescale → (x.rem + 1) % x.prescale = 1 := by
    intro hlt
    rw [show x.rem + 1 = 1 + x.prescale by omega, Nat.add_mod_right, Nat.mod_eq_of_lt hp]
  rcases timerUpdate_cases 1 x with ⟨hs | hs, -⟩ | ⟨-, -, hle, e⟩ | ⟨-, -, hlt, -, e⟩ |
    ⟨-, -, hlt, -, e⟩
  · omega
  · exact absurd (hclear.symm.trans hs) nofun
  · simp [e]
  · simp [e, hmod (Nat.not_le.2 hlt)]
  · simp [e, hmod (Nat.not_le.2 hlt)]

/-- After `k` unit ticks with a divisor above 1 the timer runs, or it has timed out past `v * p`. -/
def Timer.AfterUnits (p v k : Nat) (x : Timer) : Prop :=
  x.Running p v k ∨ x.TimedOut p v k ∧ v * p < k

/-- The tick that times the timer out leaves a remainder, so it comes after `v * p`. -/
theorem Timer.AfterUnits.tick {k : Nat} (hp : 1 < p) (h : x.AfterUnits p v k) :
    (timerUpdate 1 x).AfterUnits p v (k + 1) := by
  rcases h with hrun | ⟨hout, hlt⟩
  · refine (hrun.tick (Nat.lt_of_succ_lt hp)).imp_right fun hout => ⟨hout, ?_⟩
    have hrem : 0 < (timerUpdate 1 x).rem := timerUpdate_one_rem_pos (hrun.prescale ▸ hp)
      hrun.clear (hrun.prescale ▸ hrun.rem_le)
    have hne : k + 1 ≠ v * p := fun heq => absurd (hout.rem_at_product heq) (Nat.ne_of_gt hrem)
    exact Nat.lt_of_le_of_ne hout.ge_product hne.symm
  · exact .inr ⟨hout.tick, Nat.lt_succ_of_lt hlt⟩

theorem Timer.armed_afterUnits (hp : 1 < p) (v : Byte) (k : Nat) :
    (Timer.ticked ⟨p, v, v, 0, false⟩ (List.replicate k 1)).AfterUnits p v.toNat k :=
  Timer.ticked_units (Inv := AfterUnits p v.toNat) (.inl (Timer.Running.armed p v))
    (fun _ _ => Timer.AfterUnits.tick hp) k

/-- After `k` unit ticks with divisor 1 the timer runs and its count has the parity of the start
value, since it counts down by 2 at every second tick, or it has timed out no earlier than R174
says. -/
def Timer.AfterUnitsByOne (v k : Nat) (x : Timer) : Prop :=
  x.Running 1 v k ∧ x.count.toNat % 2 = v % 2 ∨ x.TimedOut 1 v k ∧ 2 * max 1 ((v + 1) / 2) ≤ k

theorem Timer.AfterUnitsByOne.tick {k : Nat} (h : x.AfterUnitsByOne v k) :
    (timerUpdate 1 x).AfterUnitsByOne v (k + 1) := by
  rcases h with ⟨hrun, hparity⟩ | ⟨hout, hle⟩
  case inr => exact .inr ⟨hout.tick, Nat.le_succ_of_le hle⟩
  have hnext := hrun.tick (n := 1) Nat.one_pos
  obtain ⟨hp, hclear, hrem, hcount, hpos, hsum⟩ := hrun
  have hpos' : 0 < x.prescale := hp ▸ Nat.one_pos
  rcases Nat.eq_zero_or_pos x.rem with hzero | hone
  · have e := timerUpdate_accumulates (n := 1) hpos' hclear (by omega)
    refine .inl ⟨hnext.resolve_right fun hout => ?_, by rw [e]; exact hparity⟩
    rw [e] at hout
    exact absurd (hout.latched.symm.trans hclear) nofun
  have hlt : x.prescale < x.rem + 1 := by omega
  have hwhole : (x.rem + 1) / x.prescale = 2 := by rw [hp, Nat.div_one]; omega
  rcases Nat.lt_or_ge 2 x.count.toNat with hdec | hlatch
  · rw [← hwhole] at hdec
    have e := timerUpdate_decrements hpos' hclear hlt hdec
    refine .inl ⟨hnext.resolve_right fun hout => ?_, ?_⟩
    · rw [e] at hout
      exact absurd (hout.latched.symm.trans hclear) nofun
    · rw [e, timerUpdate_count_toNat hdec, hwhole]
      omega
  · have e := timerUpdate_latches hpos' hclear hlt (hwhole ▸ hlatch)
    refine .inr ⟨hnext.resolve_left fun hrun => ?_, by omega⟩
    rw [e] at hrun
    exact hrun.not_latched rfl

theorem Timer.armed_afterUnitsByOne (v : Byte) (k : Nat) :
    (Timer.ticked ⟨1, v, v, 0, false⟩ (List.replicate k 1)).AfterUnitsByOne v.toNat k :=
  Timer.ticked_units (Inv := AfterUnitsByOne v.toNat) (.inl ⟨Timer.Running.armed 1 v, rfl⟩)
    (fun _ _ => Timer.AfterUnitsByOne.tick) k

/-- With divisor 1 a timer that still runs has not reached the tick of R174. -/
theorem Timer.Running.lt_of_parity (h : x.Running 1 v total) (hparity : x.count.toNat % 2 = v % 2) :
    total < 2 * max 1 ((v + 1) / 2) := by
  obtain ⟨-, -, hrem, hcount, hpos, hsum⟩ := h
  omega

/-- Settles O29: for a divisor above 1 no unit tick reaches remainder 0, and for divisor 1 the
parity of the count gives the tick. -/
theorem unitTicksLatchAtTheStatedTick : Obligations.UnitTicksLatchAtTheStatedTick := by
  intro s c p v k _ harmed
  obtain ⟨t, ht, htimer⟩ := runOps_ticks (List.replicate k 1) s c
  rw [List.map_replicate] at ht
  refine ⟨t, ht, ?_⟩
  rw [htimer, harmed]
  refine ⟨fun hp hv => ?startPos, fun hp hv => ?startZero, ?divisorOne⟩
  case startPos =>
    rcases Timer.armed_afterUnits hp v k with hrun | ⟨hout, hlt⟩
    · exact iff_of_false hrun.not_latched (Nat.not_le.2 (Nat.lt_succ_of_le (hrun.total_le hv)))
    · exact iff_of_true hout.latched hlt
  case startZero =>
    rcases Timer.armed_afterUnits hp v k with hrun | ⟨hout, -⟩
    · exact iff_of_false hrun.not_latched
        (Nat.not_le.2 (Nat.lt_succ_of_le (hv ▸ hrun).total_le_prescale))
    · exact iff_of_true hout.latched hout.gt_prescale
  case divisorOne =>
    rintro rfl
    rcases Timer.armed_afterUnitsByOne v k with ⟨hrun, hparity⟩ | ⟨hout, hge⟩
    · exact iff_of_false hrun.not_latched (Nat.not_le.2 (hrun.lt_of_parity hparity))
    · exact iff_of_true hout.latched hge

end Sys2Proof.Machine
end

section
/-! SUPPORT. Proofs: a whole frame on the serial line (spec/44_serial_shift.md section 3). -/

namespace Sys2Proof.Machine

/-- The bits of the accumulator, the least significant first. -/
def accBits (acc : Byte) : List Bool := List.ofFn fun i : Fin 8 => acc.getLsbD i.val

/-- Taking a bit puts it behind the others and drops the first. -/
theorem accBits_consumed (x : Serial) (b : Bool) :
    accBits (x.consumed b).acc = (accBits x.acc ++ [b]).drop 1 := by
  refine List.ext_getElem (by simp [accBits]) fun i hi _ => ?_
  have hi8 : i < 8 := by simpa [accBits] using hi
  simp only [accBits, List.getElem_ofFn, Serial.consumed_acc_getLsbD x b i hi8, List.getElem_drop,
    List.getElem_append, List.length_ofFn, List.getElem_singleton]
  by_cases hlast : i = 7
  · rw [if_pos hlast, dif_neg (by omega)]
  · rw [if_neg hlast, dif_pos (by omega), Nat.add_comm]

/-- The state after a read of offset 2 of `SYS` and a write of `v` that takes a bit. -/
def State.takeBit (s : State) (v : Byte) : State :=
  { s with
    sys := { s.sys with pbd := v }
    ser := s.ser.consumed (serialBit v)
    reads := s.reads ++ [s.sys.pbd] }

/-- A read of offset 2 of `SYS` and a write of it, for each byte. -/
def bitOps (vs : List Byte) : List Instr := vs.flatMap fun v => [.rdPbdSer, .wrPbdSer v]

theorem runOps_takeBit {s : State} (v : Byte) (rest : List Instr) (ha : s.ser.active = true)
    (hn : s.ser.bitcnt ≠ 8) :
    runOps (.rdPbdSer :: .wrPbdSer v :: rest) s = runOps rest (s.takeBit v) := by
  rw [runOps_cons _ (exec_rdPbdSer s)]
  exact runOps_cons rest (exec_wrPbdSer_consumes ha rfl hn)

/-- What the bits of a frame leave alone. -/
theorem State.foldl_takeBit_frame (vs : List Byte) (s : State) :
    (vs.foldl State.takeBit s).app = s.app ∧ (vs.foldl State.takeBit s).tapew = s.tapew ∧
      (vs.foldl State.takeBit s).txcon = s.txcon ∧ (vs.foldl State.takeBit s).txtape = s.txtape ∧
      (vs.foldl State.takeBit s).ser.active = s.ser.active ∧
      ∃ p, (vs.foldl State.takeBit s).sys = { s.sys with pbd := p } := by
  induction vs generalizing s with
  | nil => exact ⟨rfl, rfl, rfl, rfl, rfl, s.sys.pbd, rfl⟩
  | cons v vs ih => exact ih (s.takeBit v)

theorem State.foldl_takeBit_bitcnt (vs : List Byte) (s : State) :
    (vs.foldl State.takeBit s).ser.bitcnt = s.ser.bitcnt + vs.length := by
  induction vs generalizing s with
  | nil => rfl
  | cons v vs ih =>
    rw [List.foldl_cons, ih, List.length_cons]
    simp only [State.takeBit, Serial.consumed]
    omega

/-- The bits taken stand in the accumulator in their order, behind what is left of the old ones. -/
theorem State.accBits_foldl_takeBit (vs : List Byte) (s : State) :
    accBits (vs.foldl State.takeBit s).ser.acc =
      (accBits s.ser.acc ++ vs.map serialBit).drop vs.length := by
  induction vs generalizing s with
  | nil => simp
  | cons v vs ih =>
    have hlen : 1 ≤ (accBits s.ser.acc ++ [serialBit v]).length := by simp
    rw [List.foldl_cons, ih, State.takeBit, accBits_consumed,
      ← List.drop_append_of_le_length hlen, List.append_assoc, List.drop_drop]
    simp [Nat.add_comm]

/-- The bits of a frame are taken one after another, up to the eighth. -/
theorem runOps_bitOps (vs : List Byte) (rest : List Instr) {s : State} (ha : s.ser.active = true)
    (hn : s.ser.bitcnt + vs.length ≤ 8) :
    runOps (bitOps vs ++ rest) s = runOps rest (vs.foldl State.takeBit s) := by
  induction vs generalizing s with
  | nil => rfl
  | cons v vs ih =>
    rw [List.length_cons] at hn
    calc runOps (bitOps (v :: vs) ++ rest) s
        = runOps (bitOps vs ++ rest) (s.takeBit v) := runOps_takeBit v _ ha (by omega)
      _ = runOps rest (vs.foldl State.takeBit (s.takeBit v)) := ih ha (by
        simp only [State.takeBit, Serial.consumed]
        omega)

theorem State.emit_txcon (s : State) (b : Byte) :
    (s.emit b).txcon = if s.tapew then s.txcon else s.txcon ++ [b] := by
  rcases s.emit_cases b with ⟨htape, e⟩ | ⟨htape, -, e⟩ | ⟨htape, -, e⟩ <;> rw [e, htape] <;> rfl

theorem State.emit_txtape (s : State) (b : Byte) :
    (s.emit b).txtape = if s.tapew ∧ b ≠ 0 then s.txtape ++ [b] else s.txtape := by
  rcases s.emit_cases b with ⟨htape, e⟩ | ⟨htape, hb, e⟩ | ⟨-, hb, e⟩ <;> rw [e]
  · rw [if_neg fun ⟨hopen, _⟩ => absurd (htape.symm.trans hopen) nofun]
  · rw [if_pos ⟨htape, hb⟩]
  · rw [if_neg fun ⟨_, hnonzero⟩ => hnonzero hb]

/-- A read of offset 2 of `SYS` and a write of it after the eighth bit emit the accumulated byte and
end the frame. -/
theorem runOps_lastWrite {s : State} (v : Byte) (ha : s.ser.active = true)
    (hn : s.ser.bitcnt = 8) :
    ∃ t, runOps [.rdPbdSer, .wrPbdSer v] s = .next t ∧ t.ser.active = false ∧
      t.txcon = (if s.tapew then s.txcon else s.txcon ++ [s.ser.acc]) ∧
      t.txtape = (if s.tapew ∧ s.ser.acc ≠ 0 then s.txtape ++ [s.ser.acc] else s.txtape) ∧
      t.sys = { s.sys with pbd := v } ∧ t.app = s.app := by
  rw [runOps_cons _ (exec_rdPbdSer s)]
  refine ⟨_, runOps_cons [] (exec_wrPbdSer_emits ha rfl hn), rfl, ?_, ?_, ?_, ?_⟩
  · exact State.emit_txcon _ _
  · exact State.emit_txtape _ _
  · exact State.emit_sys _ _
  · exact State.emit_app _ _

/-- The state after a start write of `v0` and the bits of `vs`. -/
def State.frameBits (s : State) (v0 : Byte) (vs : List Byte) : State :=
  vs.foldl State.takeBit ((s.setPbd .sys v0).setSer Serial.started)

theorem runOps_frameBits {s : State} {v0 : Byte} {vs : List Byte} (rest : List Instr)
    (hidle : s.ser.active = false) (hstart : serialBit v0 = false) (hlen : vs.length = 8) :
    runOps (.wrPbdSer v0 :: (bitOps vs ++ rest)) s = runOps rest (s.frameBits v0 vs) := by
  rw [runOps_cons _ (exec_wrPbdSer_starts hidle hstart)]
  exact runOps_bitOps vs rest rfl (by rw [hlen]; exact Nat.le_refl 8)

/-- After eight bits the accumulator holds them in their order. -/
theorem State.accBits_frameBits {s : State} {v0 : Byte} {vs : List Byte} (hlen : vs.length = 8) :
    accBits (s.frameBits v0 vs).ser.acc = vs.map serialBit := by
  rw [State.frameBits, State.accBits_foldl_takeBit, hlen]
  rfl

/-- The eight bytes of a frame whose bits are data. -/
def dataBytes (w : Vector Byte 10) : List Byte := List.ofFn fun i : Fin 8 => w[i.val + 1]

/-- Settles O36: the start write empties the accumulator, the eight bits fill it in their order, and
the last write emits it. -/
theorem frameIsSentLeastSignificantBitFirst : Obligations.FrameIsSentLeastSignificantBitFirst := by
  intro s w hidle hstart
  have hlen : (dataBytes w).length = 8 := List.length_ofFn
  have hbits := State.accBits_frameBits (s := s) (v0 := w[0]) hlen
  obtain ⟨happ, htapew, htxcon, htxtape, hactive, p, hsys⟩ :=
    State.foldl_takeBit_frame (dataBytes w) ((s.setPbd .sys w[0]).setSer Serial.started)
  have hcnt : (s.frameBits w[0] (dataBytes w)).ser.bitcnt = 8 := by
    rw [State.frameBits, State.foldl_takeBit_bitcnt, hlen]
    rfl
  rw [← State.frameBits] at happ htapew htxcon htxtape hactive hsys
  obtain ⟨t, ht, hend, hcon, htape, htsys, htapp⟩ := runOps_lastWrite w[9] hactive hcnt
  rw [htapew, htxcon] at hcon
  rw [htapew, htxtape] at htape
  refine ⟨t, _, ?runs, fun i => ?bits, hend, hcon, htape, by rw [htsys, hsys]; rfl,
    htapp.trans happ⟩
  case runs => exact (runOps_frameBits _ hidle hstart hlen).trans ht
  case bits =>
    have hlt : i.val < (accBits (s.frameBits w[0] (dataBytes w)).ser.acc).length := by
      simp only [accBits, List.length_ofFn, i.isLt]
    have hbit := List.getElem_of_eq hbits hlt
    simpa only [accBits, dataBytes, List.getElem_map, List.getElem_ofFn, serialBit] using hbit

end Sys2Proof.Machine
end
